-- ==== Sys2Proof/Word.lean ====
section
/-! DEFINITION. The words of the engine: bytes, the command bus, the command and response words
(00_scope.md §5, 20_memory.md R23, 30_encoding.md R36, R43). -/

namespace Sys2Proof

/-- A byte: 8 bits, bit 7 the most significant (20_memory.md R23, R26). -/
abbrev Byte := BitVec 8

/-- The command data bus `DATA`: 32 byte lanes, 256 bits (20_memory.md R23, 30_encoding.md R36). -/
abbrev Data := BitVec 256

/-- The `LEN` field: an unsigned byte count, 0 to 63 (30_encoding.md R36, R39). -/
abbrev Len := BitVec 6

/-- A command word `W`, 264 bits (30_encoding.md R36). -/
abbrev CmdWord := BitVec 264

/-- A response word `Q`, 136 bits (30_encoding.md R43). -/
abbrev RspWord := BitVec 136

end Sys2Proof
end

