-- ==== Sys2Proof/Config.lean ====
section
/-! DEFINITION. What is fixed for an implementation: the sizes of 00_scope.md R3, and the latencies the
spec leaves open (70_reset_and_hazards.md R101). There is no other configuration (00_scope.md R5). -/

namespace Sys2Proof.Config

/-- `KEY_BYTES` (00_scope.md R3). -/
abbrev keyBytes : Nat := 32

/-- `BLOCK_BYTES` (00_scope.md R3). -/
abbrev blockBytes : Nat := 16

/-- `TAG_BYTES` (00_scope.md R3). -/
abbrev tagBytes : Nat := 16

/-! The latencies `T_*` are integers `≥ 1` that may differ by `OP`, `LEN` and `PHASE` and by nothing else
(70_reset_and_hazards.md R101, R102; 92_eei_decisions.md D23). Each is left open: an opaque constant gives
the cycles beyond the first, so that no proof can know a latency and every latency is at least 1
(log entry 5). -/

/-- `T_CLR - 1`, by `LEN` and the bits of `PHASE` (R101, R102). -/
opaque clrExtra : Len → BitVec 2 → Nat

/-- `T_LDKEY - 1`, by `LEN` and the bits of `PHASE` (R101, R102). -/
opaque ldkeyExtra : Len → BitVec 2 → Nat

/-- `T_ABSORB - 1`, by `LEN` and the bits of `PHASE` (R101, R102). -/
opaque absorbExtra : Len → BitVec 2 → Nat

/-- `T_FINAL - 1`, by `LEN` and the bits of `PHASE` (R101, R102). -/
opaque finalExtra : Len → BitVec 2 → Nat

/-- `T_FAULT - 1`, for a faulting command or one answered in `ERROR`, by the bits of `OP`, `LEN` and the bits
of `PHASE` (R101, R102). -/
opaque faultExtra : BitVec 2 → Len → BitVec 2 → Nat

end Sys2Proof.Config
end

