-- ==== Sys2Proof/Syntax.lean ====
section
/-! DEFINITION. The commands: one constructor per row of spec/opcode_table.json (30_encoding.md R36, R38).
A row is selected by `OP` alone (its mask is `0xC0`), so each constructor carries `LEN` and the data lanes as
they stand in the word; which `LEN` is legal is WellFormed's subject (30_encoding.md R39). -/

namespace Sys2Proof

/-- The opcode field `OP` (30_encoding.md R38). -/
inductive Op where
  | clr
  | ldkey
  | absorb
  | final
  deriving DecidableEq, Repr

/-- A command: the opcode's constructor with the `LEN` field and the data lanes (30_encoding.md R36). -/
inductive Instr where
  /-- `CLR` (43_control.md R68). -/
  | clr (len : Len) (data : Data)
  /-- `LDKEY` (40_key_load_clamp.md R53). -/
  | ldkey (len : Len) (data : Data)
  /-- `ABSORB` (41_block_absorb.md R60). -/
  | absorb (len : Len) (data : Data)
  /-- `FINAL` (42_finalize.md R66). -/
  | final (len : Len) (data : Data)
  deriving DecidableEq, Repr

/-- The command's `OP` field. -/
def Instr.op : Instr → Op
  | .clr _ _ => .clr
  | .ldkey _ _ => .ldkey
  | .absorb _ _ => .absorb
  | .final _ _ => .final

/-- The command's `LEN` field. -/
def Instr.len : Instr → Len
  | .clr len _ => len
  | .ldkey len _ => len
  | .absorb len _ => len
  | .final len _ => len

/-- The command's data lanes. -/
def Instr.data : Instr → Data
  | .clr _ data => data
  | .ldkey _ data => data
  | .absorb _ data => data
  | .final _ data => data

/-- The fault names with `NONE`: what `DECODE_FAULT` answers (30_encoding.md R39), what `ERR` holds
(10_state.md R13) and what `STATUS` says, there with `OK` for `NONE` (30_encoding.md R44). Codes 5, 6 and 7
are never held or given (93_implementation_defined.md U11). -/
inductive ErrCode where
  /-- 0: `NONE`, and `OK` as a `STATUS`. -/
  | noFault
  /-- 1: an `LDKEY` whose `LEN` is not 32 (60_exceptions.md R81). -/
  | keylen
  /-- 2: an `ABSORB` whose `LEN` is 0 or above 16 (60_exceptions.md R82). -/
  | blklen
  /-- 3: a well-formed command in a phase that does not admit it (60_exceptions.md R83). -/
  | seq
  /-- 4: a `CLR` or `FINAL` whose `LEN` is not 0 (60_exceptions.md R84). -/
  | illegal
  deriving DecidableEq, Repr

end Sys2Proof
end

