-- ==== Sys2Proof/WellFormed.lean ====
section
/-! DEFINITION. Which commands are well formed: the legal `LEN` of each opcode (30_encoding.md R39, the
column "legal `LEN`"). An ill-formed command is still decoded and executed: it takes the fault entry. -/

namespace Sys2Proof

/-- The command's `LEN` is one its opcode allows (30_encoding.md R39). -/
def Instr.wellFormed : Instr → Bool
  | .clr len _ => len.toNat == 0
  | .ldkey len _ => len.toNat == 32
  | .absorb len _ => 1 ≤ len.toNat && len.toNat ≤ 16
  | .final len _ => len.toNat == 0

end Sys2Proof
end

