-- ==== Sys2Proof/Decode.lean ====
section
/-! DEFINITION. The little-endian codec (20_memory.md R24, R25), the decoder of command words
(30_encoding.md R36, R38, R40), the decode check `DECODE_FAULT` (R39), and the encoder. -/

namespace Sys2Proof

/-! ## Bytes and integers -/

/-- `LE_dec(B)`: the number a byte string encodes, least significant byte first (20_memory.md R24). -/
def leDec : List Byte → Nat
  | [] => 0
  | b :: bs => b.toNat + 256 * leDec bs

/-- `LE_enc_k(v)`: the `k` bytes of `v mod 2^(8k)`, least significant first (20_memory.md R25). -/
def leEnc : Nat → Nat → List Byte
  | 0, _ => []
  | k + 1, v => BitVec.ofNat 8 v :: leEnc k (v / 256)

/-! ## The opcode field -/

/-- The bits of `OP` (30_encoding.md R38). -/
def Op.bits : Op → BitVec 2
  | .clr => 0b00#2
  | .ldkey => 0b01#2
  | .absorb => 0b10#2
  | .final => 0b11#2

/-- The opcode with the given bits: all four values are assigned (30_encoding.md R38). -/
def Op.ofBits (b : BitVec 2) : Op :=
  if b = 0b00#2 then .clr
  else if b = 0b01#2 then .ldkey
  else if b = 0b10#2 then .absorb
  else .final

/-! ## The decoder -/

/-- `LEN = W.bits[5:0]` (30_encoding.md R36). -/
def wordLen (w : CmdWord) : Len := w.extractLsb' 0 6

/-- `OP = W.bits[7:6]` (30_encoding.md R36). -/
def wordOp (w : CmdWord) : Op := Op.ofBits (w.extractLsb' 6 2)

/-- `DATA = W.bits[263:8]` (30_encoding.md R36). -/
def wordData (w : CmdWord) : Data := w.extractLsb' 8 256

/-- The command with the given three fields. -/
def Instr.ofFields (op : Op) (len : Len) (data : Data) : Instr :=
  match op with
  | .clr => .clr len data
  | .ldkey => .ldkey len data
  | .absorb => .absorb len data
  | .final => .final len data

/-- The command a word stands for. Total: every word is one of the four commands with some `LEN`
(30_encoding.md R40); `PHASE` plays no part (R42). -/
def decode (w : CmdWord) : Instr := Instr.ofFields (wordOp w) (wordLen w) (wordData w)

/-- `DECODE_FAULT`, a function of the header's two fields alone (30_encoding.md R39). -/
def decodeFault (op : Op) (len : Len) : ErrCode :=
  match op with
  | .clr => if len.toNat = 0 then .noFault else .illegal
  | .ldkey => if len.toNat = 32 then .noFault else .keylen
  | .absorb => if 1 ≤ len.toNat ∧ len.toNat ≤ 16 then .noFault else .blklen
  | .final => if len.toNat = 0 then .noFault else .illegal

/-- `DECODE_FAULT(W)` (30_encoding.md R39). -/
def wordFault (w : CmdWord) : ErrCode := decodeFault (wordOp w) (wordLen w)

/-- Why a byte string is no command. The port carries all 264 bits at once, so this concerns the byte form of
30_encoding.md R37 only. -/
inductive DecodeError where
  /-- Fewer than the 33 bytes every command has (30_encoding.md R37, R42). -/
  | truncated
  deriving DecidableEq, Repr

/-- Decode the byte form `LE_enc_33(W)` at the head of a byte string (30_encoding.md R37): the command and the
bytes after it, or the reason there is none. -/
def decodeBytes (bytes : List Byte) : Except DecodeError (Instr × List Byte) :=
  if bytes.length < 33 then .error .truncated
  else .ok (decode (BitVec.ofNat 264 (leDec (bytes.take 33))), bytes.drop 33)

/-! ## The encoder -/

/-- The word of a command: `LEN` in bits 5 to 0, `OP` in bits 7 and 6, the lanes above
(30_encoding.md R36, R38). -/
def encode (i : Instr) : CmdWord := i.data ++ (i.op.bits ++ i.len)

/-- The byte form of a command, `LE_enc_33(W)`: the header byte, then the lanes in order (30_encoding.md R37). -/
def encodeBytes (i : Instr) : List Byte := leEnc 33 (encode i).toNat

/-! ## The opcode table's numbering -/

/-- The word whose low `nbits` bits are those of `w` and whose other bits are 0. -/
def tableWord (nbits w : Nat) : CmdWord := BitVec.ofNat 264 (w % 2 ^ nbits)

/-- The instruction the decoder reads from a table word, given to it in its byte form. No word has more than
264 bits (30_encoding.md R42). -/
def decodeTableWord (nbits w : Nat) : Option Instr :=
  if nbits ≤ 264 then
    match decodeBytes (leEnc 33 (w % 2 ^ nbits)) with
    | .ok (i, _) => some i
    | .error _ => none
  else none

end Sys2Proof
end

