-- ==== Sys2Proof/Machine/State.lean ====
section
/-! DEFINITION. The state of the engine as plain data: the five registers (10_state.md R7 to R13), the
response port and `cmd_ready` (70_reset_and_hazards.md R103), and what the host drives on the ports. -/

namespace Sys2Proof.Machine

/-- The values of the 2-bit register `PHASE`, all four of them (10_state.md R12). -/
inductive Phase where
  /-- 0b00: no key is loaded. -/
  | idle
  /-- 0b01: a key is loaded, every block so far was full. -/
  | keyed
  /-- 0b10: the last block absorbed was short, no further block may follow. -/
  | last
  /-- 0b11: a fault was taken, `ERR` holds the cause. -/
  | error
  deriving DecidableEq, Repr

/-- What the outside does to the ports at one port event (10_state.md R20). -/
inductive PortIn where
  /-- Power is applied; the registers hold no defined value until a reset (70_reset_and_hazards.md R107). -/
  | powerUp
  /-- `rst_n` is held low as 70_reset_and_hazards.md R106 requires, and released. -/
  | resetLow
  /-- A rising `clk` edge with `rst_n = 1` and these values of `cmd_valid`, `cmd_word` and `rsp_ready`
  (70_reset_and_hazards.md R103). -/
  | edge (cmdValid : Bool) (cmdWord : CmdWord) (rspReady : Bool)
  deriving DecidableEq, Repr

/-- The state of one engine instance with its ports. -/
structure State where
  /-- `R`: the clamped multiplier `r` (10_state.md R9). -/
  R : BitVec 128
  /-- `S`: the addend `s` (10_state.md R10). -/
  S : BitVec 128
  /-- `ACC`: the accumulator `a` (10_state.md R11, R18). -/
  ACC : BitVec 130
  /-- `PHASE` (10_state.md R12). -/
  PHASE : Phase
  /-- `ERR` (10_state.md R13). -/
  ERR : ErrCode
  /-- The response port: the pending `rsp_word` while `rsp_valid = 1`, and none while `rsp_valid = 0`
  (70_reset_and_hazards.md R103 items 4, 5). -/
  rsp : Option RspWord
  /-- The `cmd_ready` output (70_reset_and_hazards.md R103 item 3). -/
  cmdReady : Bool
  /-- The MODEL's own field: what the outside does at the coming port events, the next one first. After the
  last one nothing is offered and no response is taken. DESIGN CHOICE, log entry 1. -/
  inputs : List PortIn
  deriving DecidableEq, Repr

/-- The reasons to stop with a fault. There is none: "every command in every state has a response"
(00_scope.md §8, 60_exceptions.md R88, R90). A fault of the spec (`KEYLEN`, `BLKLEN`, `SEQ`, `ILLEGAL`) is an
`ErrCode`, and taking one is a next state (R89). -/
inductive Fault where
  deriving DecidableEq, Repr

/-- The reasons to refuse. -/
inductive Refusal where
  /-- Raised by an arm of `exec` whose instruction has no meaning yet (no arm here). Safe. -/
  | notModelled (mnemonic : String)
  /-- Raised by `step` when power was applied and no later port event is a reset: the spec "gives no meaning
  to an engine that was never reset" (70_reset_and_hazards.md R107, 93_implementation_defined.md U2). Safe. -/
  | neverReset
  deriving DecidableEq, Repr

/-- The state right after reset (10_state.md R19, 70_reset_and_hazards.md R106): `cmd_ready` is still 0. The
environment does nothing (DESIGN CHOICE, log entry 2). -/
def State.reset : State where
  R := 0
  S := 0
  ACC := 0
  PHASE := .idle
  ERR := .noFault
  rsp := none
  cmdReady := false
  inputs := []

end Sys2Proof.Machine
end

