-- ==== Sys2Proof/Machine/Operands.lean ====
section
/-! DEFINITION. The operand forms: the byte lanes of a bus (20_memory.md R23), the lanes each command reads
(20_memory.md R29, 30_encoding.md R41), and the block encoder (41_block_absorb.md R55). -/

namespace Sys2Proof.Machine

/-- Lane `i` of a bus: bits `8i+7` to `8i` (20_memory.md R23). -/
def lane {n : Nat} (bus : BitVec n) (i : Nat) : Byte := bus.extractLsb' (8 * i) 8

/-- The first `k` lanes of a bus, lane 0 first (20_memory.md R23). -/
def lanes {n : Nat} (bus : BitVec n) (k : Nat) : List Byte := (List.range k).map (lane bus)

/-- The data bus that carries a byte string from lane 0 on, `00` in the other lanes (30_encoding.md R45). -/
def busOfBytes (bytes : List Byte) : Data := BitVec.ofNat 256 (leDec bytes)

/-- Key bytes 0 to 15, the first key half (40_key_load_clamp.md R53, 20_memory.md R27). -/
def keyLow (data : Data) : List Byte := (lanes data Config.keyBytes).take 16

/-- Key bytes 16 to 31, the second key half (40_key_load_clamp.md R53, 20_memory.md R27). -/
def keyHigh (data : Data) : List Byte := (lanes data Config.keyBytes).drop 16

/-- The chunk an `ABSORB` of `L` bytes carries: lanes 0 to `L - 1` (41_block_absorb.md R60). -/
def chunkOf (data : Data) (L : Nat) : List Byte := lanes data L

/-- The block integer of a chunk: its little-endian value with the marker bit at `8` times its length
(41_block_absorb.md R55). -/
def blockInt (chunk : List Byte) : Nat := leDec chunk + 2 ^ (8 * chunk.length)

/-- `BLK_enc(D, L)` (41_block_absorb.md R55). -/
def blkEnc (data : Data) (L : Nat) : Nat := blockInt (chunkOf data L)

end Sys2Proof.Machine
end

