-- ==== Sys2Proof/Machine/Arith.lean ====
section
/-! DEFINITION. The arithmetic of the engine on natural numbers (00_scope.md §5, 41_block_absorb.md R58): the
clamp, the multiply-accumulate step, the division-free reduction, the tag value. -/

namespace Sys2Proof.Machine

/-- `P = 2^130 - 5` (00_scope.md R2). -/
def P : Nat := 2 ^ 130 - 5

/-- `CLAMP_MASK`, read as an integer (00_scope.md R4, 90_conflicts.md C2). -/
def clampMask : BitVec 128 := 0x0ffffffc0ffffffc0ffffffc0fffffff#128

/-- `CLAMP(x)` (40_key_load_clamp.md R50). -/
def clamp (x : BitVec 128) : BitVec 128 := x &&& clampMask

/-- `MACSTEP(a, n, r)` (41_block_absorb.md R57): the sum is exact, one reduction follows the product. -/
def macstep (a n r : Nat) : Nat := (r * (a + n)) % P

/-- `REDUCE(x)` for `x < 2^255`: a reduction without division (41_block_absorb.md R59, not normative). -/
def reduce (x : Nat) : Nat :=
  let x1 := x % 2 ^ 130 + 5 * (x / 2 ^ 130)
  let x2 := x1 % 2 ^ 130 + 5 * (x1 / 2 ^ 130)
  let u := x2 + 5
  if u / 2 ^ 130 = 1 then u - 2 ^ 130 else x2

/-- `TAGVAL(a, s)` (42_finalize.md R65): the sum is not reduced modulo `P`. -/
def tagval (a s : Nat) : Nat := (a + s) % 2 ^ 128

end Sys2Proof.Machine
end

