-- ==== Sys2Proof/Machine/Flags.lean ====
section
/-! DEFINITION. The engine has no condition flag (10_state.md R17). What it shows instead: the codes of `PHASE`
and `ERR`, the `status` output (10_state.md R14), the response word and its fields (30_encoding.md R43, R44),
and the response port's two outputs (70_reset_and_hazards.md R103). -/

namespace Sys2Proof

/-- The code of a fault in `ERR` and in `STATUS` (10_state.md R13, 30_encoding.md R44). -/
def ErrCode.bits : ErrCode → BitVec 3
  | .noFault => 0
  | .keylen => 1
  | .blklen => 2
  | .seq => 3
  | .illegal => 4

namespace Machine

/-- The value of `PHASE` (10_state.md R12). -/
def Phase.bits : Phase → BitVec 2
  | .idle => 0b00#2
  | .keyed => 0b01#2
  | .last => 0b10#2
  | .error => 0b11#2

/-- The `status` output: `PHASE` in bits 1 to 0, `ERR` in bits 4 to 2 (10_state.md R14). -/
def State.status (s : State) : BitVec 5 := s.ERR.bits ++ s.PHASE.bits

/-- The response word with the given fields: `STATUS` in bits 2 to 0, `TAGV` in bit 3, bits 7 to 4 zero, the
tag lanes above (30_encoding.md R43). -/
def rspWord (status : ErrCode) (tagv : Bool) (tag : BitVec 128) : RspWord :=
  tag ++ (0#4 ++ (BitVec.ofBool tagv ++ status.bits))

/-- `STATUS` of a response word (30_encoding.md R43). -/
def rspStatus (q : RspWord) : BitVec 3 := q.extractLsb' 0 3

/-- `TAGV` of a response word (30_encoding.md R43). -/
def rspTagv (q : RspWord) : Bool := q.getLsbD 3

/-- The reserved bits 7 to 4 of a response word (30_encoding.md R43). -/
def rspReserved (q : RspWord) : BitVec 4 := q.extractLsb' 4 4

/-- The `TAG` lanes of a response word (30_encoding.md R43). -/
def rspTag (q : RspWord) : BitVec 128 := q.extractLsb' 8 128

/-- The byte form of a response, `LE_enc_17(Q)` (30_encoding.md R43). -/
def rspBytes (q : RspWord) : List Byte := leEnc 17 q.toNat

/-- The `rsp_valid` output (70_reset_and_hazards.md R103 item 4). -/
def State.rspValid (s : State) : Bool := s.rsp.isSome

/-- The `rsp_word` output: zero when no response is pending (70_reset_and_hazards.md R103 item 5, R106). -/
def State.rspOut (s : State) : RspWord := s.rsp.getD 0

end Machine

end Sys2Proof
end

