-- ==== Sys2Proof/Machine/Ops.lean ====
section
/-! DEFINITION. The operations the commands share: zeroise, the two responses, fault entry and the return from
`ERROR`, and the checks of a step in their one order (60_exceptions.md R88). -/

namespace Sys2Proof.Machine

/-- `zeroise()`: `R <- 0; S <- 0; ACC <- 0` (10_state.md R15). -/
def zeroise (s : State) : State := { s with R := 0, S := 0, ACC := 0 }

/-- Put a response word on the port. It is outstanding from now on, so no further command is accepted
(70_reset_and_hazards.md R103 items 3, 4). -/
def emit (q : RspWord) (s : State) : State := { s with rsp := some q, cmdReady := false }

/-- `respond(c)`: `STATUS = c`, no tag, all tag lanes zero (30_encoding.md R43). -/
def respond (c : ErrCode) (s : State) : State := emit (rspWord c false 0) s

/-- `respond_tag(T)`: `STATUS = OK`, `TAGV = 1`, the tag lanes `T` (30_encoding.md R43). -/
def respondTag (tag : List Byte) (s : State) : State :=
  emit (rspWord .noFault true (BitVec.ofNat 128 (leDec tag))) s

/-- Taking an exception: `raise f`, the fault entry of 60_exceptions.md R89. Nothing is saved but the code. -/
def raise (f : ErrCode) (s : State) : State :=
  respond f { zeroise s with ERR := f, PHASE := .error }

/-- The return from `ERROR`, which is `CLR`'s effect in every phase (43_control.md R68, 60_exceptions.md R91).
Nothing is restored. -/
def clearEngine (s : State) : State :=
  respond .noFault { zeroise s with ERR := .noFault, PHASE := .idle }

/-- `PHASE_FAULT(PHASE, OP)`: `SEQ` in the five cells of 60_exceptions.md R83. In `ERROR` it is not consulted
(R88); the value there is `NONE`. -/
def phaseFault (phase : Phase) (op : Op) : ErrCode :=
  match phase, op with
  | .idle, .absorb => .seq
  | .idle, .final => .seq
  | .keyed, .ldkey => .seq
  | .last, .ldkey => .seq
  | .last, .absorb => .seq
  | _, _ => .noFault

/-- What becomes of an accepted word (60_exceptions.md R88). -/
inductive Verdict where
  /-- The command's own pseudocode runs: "do X". -/
  | execute
  /-- In phase `ERROR`: answered with `ERR`, no register changes (60_exceptions.md R90). -/
  | sticky
  /-- The fault entry with this code (60_exceptions.md R89). -/
  | raises (f : ErrCode)
  deriving DecidableEq, Repr

/-- The checks of a step in their order: the phase `ERROR` first, then the decode fault, then the phase fault
(60_exceptions.md R86, R88). It reads the header and `PHASE` only. -/
def admission (op : Op) (len : Len) (phase : Phase) : Verdict :=
  if phase = .error then
    if op = .clr ∧ decodeFault op len = .noFault then .execute else .sticky
  else if decodeFault op len ≠ .noFault then .raises (decodeFault op len)
  else if phaseFault phase op ≠ .noFault then .raises (phaseFault phase op)
  else .execute

/-- One accepted command, `STEP(W)` (60_exceptions.md R88), with the command's own effect as an argument. -/
def stepCommand (op : Op) (len : Len) (effect : State → State) (s : State) : State :=
  match admission op len s.PHASE with
  | .execute => effect s
  | .sticky => respond s.ERR s
  | .raises f => raise f s

end Sys2Proof.Machine
end

