-- ==== Sys2Proof/Machine/BlockAbsorb.lean ====
section
/-! DEFINITION. The block fold, `ABSORB` (41_block_absorb.md R60). -/

namespace Sys2Proof.Machine

/-- The pseudocode of `ABSORB` for a chunk of `L` bytes when no fault is raised (41_block_absorb.md R60). -/
def absorbBlock (L : Nat) (data : Data) (s : State) : State :=
  respond .noFault
    { s with
      ACC := BitVec.ofNat 130 (macstep s.ACC.toNat (blkEnc data L) s.R.toNat)
      PHASE := if L = Config.blockBytes then .keyed else .last }

/-- `ABSORB` (41_block_absorb.md R60). -/
def execAbsorb (len : Len) (data : Data) (s : State) : Host.Outcome State Fault Refusal :=
  .next (stepCommand .absorb len (absorbBlock len.toNat data) s)

end Sys2Proof.Machine
end

