-- ==== Sys2Proof/Machine/Control.lean ====
section
/-! DEFINITION. The control command `CLR` (43_control.md R68). -/

namespace Sys2Proof.Machine

/-- `CLR` (43_control.md R68): no lane is read. -/
def execClr (len : Len) (_data : Data) (s : State) : Host.Outcome State Fault Refusal :=
  .next (stepCommand .clr len clearEngine s)

end Sys2Proof.Machine
end

