-- ==== Sys2Proof/Machine/Finalize.lean ====
section
/-! DEFINITION. Finalization, `FINAL` (42_finalize.md R66). -/

namespace Sys2Proof.Machine

/-- The pseudocode of `FINAL` when no fault is raised: the tag is formed from the values before the step
(42_finalize.md R66). `ERR` is not written. -/
def finish (s : State) : State :=
  respondTag (leEnc Config.tagBytes (tagval s.ACC.toNat s.S.toNat)) { zeroise s with PHASE := .idle }

/-- `FINAL` (42_finalize.md R66): no lane is read. -/
def execFinal (len : Len) (_data : Data) (s : State) : Host.Outcome State Fault Refusal :=
  .next (stepCommand .final len finish s)

end Sys2Proof.Machine
end

