-- ==== Sys2Proof/Machine/KeyLoad.lean ====
section
/-! DEFINITION. Key load, `LDKEY` (40_key_load_clamp.md R53). -/

namespace Sys2Proof.Machine

/-- The pseudocode of `LDKEY` when no fault is raised (40_key_load_clamp.md R53). -/
def loadKey (data : Data) (s : State) : State :=
  respond .noFault
    { s with
      R := clamp (BitVec.ofNat 128 (leDec (keyLow data)))
      S := BitVec.ofNat 128 (leDec (keyHigh data))
      ACC := 0
      PHASE := .keyed }

/-- `LDKEY` (40_key_load_clamp.md R53). -/
def execLdkey (len : Len) (data : Data) (s : State) : Host.Outcome State Fault Refusal :=
  .next (stepCommand .ldkey len (loadKey data) s)

end Sys2Proof.Machine
end

