-- ==== Sys2Proof/Machine/Dispatch.lean ====
section
/-! DEFINITION. The dispatch from a command to its meaning (60_exceptions.md R88). -/

namespace Sys2Proof.Machine

def exec (i : Instr) (s : State) : Host.Outcome State Fault Refusal :=
  match i with
  | .clr len data => Sys2Proof.Machine.execClr len data s
  | .ldkey len data => Sys2Proof.Machine.execLdkey len data s
  | .absorb len data => Sys2Proof.Machine.execAbsorb len data s
  | .final len data => Sys2Proof.Machine.execFinal len data s

end Sys2Proof.Machine
end

