-- ==== Sys2Proof/Machine/Port.lean ====
section
/-! DEFINITION. The port handshake and reset at the level of port events (70_reset_and_hazards.md R103, R106,
R107). Edges at which the engine can do nothing (it computes, or has not yet raised `cmd_ready` after reset) are
not events, so no latency enters (R101, R105; log entries 3, 4). -/

namespace Sys2Proof.Machine

/-- What one port event leads to. -/
inductive PortAction where
  /-- No command is accepted: this is the next state. -/
  | settle (s : State)
  /-- This word is accepted in this state. -/
  | accept (w : CmdWord) (s : State)
  /-- Power was applied and no reset ever follows (70_reset_and_hazards.md R107). -/
  | undefined
  deriving DecidableEq, Repr

/-- The pending response is taken: `rsp_valid` falls, `rsp_word` is cleared, and no command is outstanding any
more (70_reset_and_hazards.md R103 items 3 to 5). That `cmd_ready` is 1 again at once is a DESIGN CHOICE, log
entry 3. -/
def takeResponse (s : State) : State := { s with rsp := none, cmdReady := true }

/-- A rising edge with these inputs (70_reset_and_hazards.md R103). A pending response waits for `rsp_ready`;
without one, a ready engine accepts an offered word; an engine fresh from reset raises `cmd_ready`
(DESIGN CHOICE, log entry 3). -/
def edgeAction (cmdValid : Bool) (cmdWord : CmdWord) (rspReady : Bool) (s : State) : PortAction :=
  match s.rsp with
  | some _ => .settle (if rspReady then takeResponse s else s)
  | none =>
    if s.cmdReady then
      if cmdValid then .accept cmdWord s else .settle s
    else .settle { s with cmdReady := true }

/-- Reset: every register and port at its reset value, whatever was pending is destroyed; the outside goes on
(70_reset_and_hazards.md R106). -/
def resetWith (rest : List PortIn) : State := { State.reset with inputs := rest }

/-- The events after the first reset among those given. Between the application of power and that reset nothing
has a defined value, so these events are passed over (70_reset_and_hazards.md R107; log entry 6). -/
def eventsAfterReset : List PortIn → Option (List PortIn)
  | [] => none
  | .resetLow :: rest => some rest
  | .powerUp :: rest => eventsAfterReset rest
  | .edge _ _ _ :: rest => eventsAfterReset rest

/-- What the next port event leads to. With no event left nothing is offered and nothing is taken
(DESIGN CHOICE, log entry 1). -/
def portAction (s : State) : PortAction :=
  match s.inputs with
  | [] => edgeAction false 0 false s
  | .powerUp :: rest =>
    match eventsAfterReset rest with
    | some rest' => .settle (resetWith rest')
    | none => .undefined
  | .resetLow :: rest => .settle (resetWith rest)
  | .edge cmdValid cmdWord rspReady :: rest =>
    edgeAction cmdValid cmdWord rspReady { s with inputs := rest }

/-- The state with a word offered to an engine that accepts it at the very next event: the word stands first on
the command port, no response is pending and `cmd_ready = 1` (70_reset_and_hazards.md R103 item 1). -/
def offer (w : CmdWord) (s : State) : State :=
  { s with rsp := none, cmdReady := true, inputs := .edge true w false :: s.inputs }

end Sys2Proof.Machine
end

