-- ==== Sys2Proof/Machine/Step.lean ====
section
/-! DEFINITION. One step: the next port event, and the command it accepts, whole (00_scope.md R6,
60_exceptions.md R88, 70_reset_and_hazards.md R103; log entry 4). -/

namespace Sys2Proof.Machine

/-- One step of the engine. -/
def step (s : State) : Host.Outcome State Fault Refusal :=
  match portAction s with
  | .settle t => .next t
  | .accept w t => exec (decode w) t
  | .undefined => .refused .neverReset

/-- The state with a table word offered, so that the very next step runs it (log entry 2). -/
def State.withFetchWord (s : State) (nbits w : Nat) : State := offer (tableWord nbits w) s

end Sys2Proof.Machine
end

