-- ==== Sys2Proof/Machine/ComputeTag.lean ====
section
/-! DEFINITION. The whole-message operation: the chunks of a message (44_compute_tag.md R70), the fold
`compute_tag` (R74), the pseudo-instruction `MAC` as commands (R73, 30_encoding.md R46), and a host that sends
commands one by one and takes each response (70_reset_and_hazards.md R103). -/

namespace Sys2Proof.Machine

/-- `q = ceil(m / 16)`, the number of chunks of `m` bytes (44_compute_tag.md R70). -/
def chunkCount (m : Nat) : Nat := (m + 15) / 16

/-- `CHUNKS(M)`: chunk `i + 1` is `M[16i ..< min(16(i + 1), m)]` (44_compute_tag.md R70). -/
def chunks (msg : List Byte) : List (List Byte) :=
  (List.range (chunkCount msg.length)).map fun i => (msg.drop (16 * i)).take 16

/-- One iteration of the fold of 44_compute_tag.md R74, for the multiplier `r`. -/
def foldChunk (r a : Nat) (chunk : List Byte) : Nat := macstep a (blockInt chunk) r

/-- `r = CLAMP(LE_dec(key[0 ..< 16]))` (44_compute_tag.md R74). -/
def keyR (key : List Byte) : Nat := (clamp (BitVec.ofNat 128 (leDec (key.take 16)))).toNat

/-- `s = LE_dec(key[16 ..< 32])` (44_compute_tag.md R74). -/
def keyS (key : List Byte) : Nat := leDec ((key.drop 16).take 16)

/-- `compute_tag(M, key)`; no value unless the key has 32 bytes (44_compute_tag.md R74). -/
def computeTag (msg key : List Byte) : Option (List Byte) :=
  if key.length = 32 then
    some (leEnc 16 (tagval ((chunks msg).foldl (foldChunk (keyR key)) 0) (keyS key)))
  else none

/-- The `LEN` field for a byte count. A count above 63 does not fit; the field then says 63, which is no legal
length either, so that a long operand is refused and never passes for a short one (60_exceptions.md R81; DESIGN
CHOICE, log entry 14). -/
def lenOf (count : Nat) : Len := BitVec.ofNat 6 (min count 63)

/-- `LDKEY key` with the key's length in `LEN` (30_encoding.md R45, 92_eei_decisions.md D8). -/
def ldkeyOf (key : List Byte) : Instr := .ldkey (lenOf key.length) (busOfBytes key)

/-- `ABSORB chunk` with the chunk's length in `LEN` (30_encoding.md R45). -/
def absorbOf (chunk : List Byte) : Instr := .absorb (lenOf chunk.length) (busOfBytes chunk)

/-- The expansion of `MAC key, M` (44_compute_tag.md R73). -/
def macProgram (key msg : List Byte) : List Instr :=
  ldkeyOf key :: ((chunks msg).map absorbOf ++ [.final 0 0])

/-- A host that offers one word to a ready engine and takes the response: the response with the state after
it, or none if a step stops or gives no response (70_reset_and_hazards.md R103; the offer is that of log entry 2,
the engine is ready again at once by log entry 3). -/
def transact (w : CmdWord) (s : State) : Option (RspWord × State) :=
  match step (offer w s) with
  | .next t =>
    match t.rsp with
    | some q =>
      match step { t with inputs := .edge false 0 true :: t.inputs } with
      | .next u => some (q, u)
      | .fault _ => none
      | .refused _ => none
    | none => none
  | .fault _ => none
  | .refused _ => none

/-- The responses to a sequence of words, in order, and the state after the last (20_memory.md R31). -/
def serve : List CmdWord → State → Option (List RspWord × State)
  | [], s => some ([], s)
  | w :: ws, s =>
    match transact w s with
    | some (q, t) =>
      match serve ws t with
      | some (qs, u) => some (q :: qs, u)
      | none => none
    | none => none

/-- `MAC key, M` on an engine: all responses and the state after the `FINAL` (44_compute_tag.md R73). -/
def runMac (key msg : List Byte) (s : State) : Option (List RspWord × State) :=
  serve ((macProgram key msg).map encode) s

end Sys2Proof.Machine
end

