-- ==== Sys2Proof/Machine/Assembler.lean ====
section
/-! DEFINITION. The assembler syntax of 30_encoding.md R45 and the pseudo-instruction `MAC` of R46: lines of text
to command words. What R45 leaves open of the text is chosen in log entry 13 (DESIGN CHOICE). -/

namespace Sys2Proof.Machine

/-- A line of assembly (30_encoding.md R45, R46). -/
inductive AsmLine where
  | clr
  | ldkey (key : List Byte)
  | absorb (chunk : List Byte)
  | final
  | word (op len : Nat) (bytes : List Byte)
  | mac (key msg : List Byte)
  deriving DecidableEq, Repr

/-- The command words of a line, if its operands are those the syntax allows (30_encoding.md R45, R46). -/
def AsmLine.assemble : AsmLine → Option (List CmdWord)
  | .clr => some [encode (.clr 0 0)]
  | .ldkey key => if key.length = 32 then some [encode (ldkeyOf key)] else none
  | .absorb chunk =>
    if 1 ≤ chunk.length ∧ chunk.length ≤ 16 then some [encode (absorbOf chunk)] else none
  | .final => some [encode (.final 0 0)]
  | .word op len bytes =>
    if op ≤ 3 ∧ len ≤ 63 ∧ bytes.length ≤ 32 then
      some [encode (Instr.ofFields (Op.ofBits (BitVec.ofNat 2 op)) (BitVec.ofNat 6 len) (busOfBytes bytes))]
    else none
  | .mac key msg => if key.length = 32 then some ((macProgram key msg).map encode) else none

/-! ## From text -/

/-- The value of a hexadecimal digit. -/
def hexDigit (c : Char) : Option Nat :=
  if '0' ≤ c ∧ c ≤ '9' then some (c.toNat - '0'.toNat)
  else if 'a' ≤ c ∧ c ≤ 'f' then some (c.toNat - 'a'.toNat + 10)
  else if 'A' ≤ c ∧ c ≤ 'F' then some (c.toNat - 'A'.toNat + 10)
  else none

/-- Two digits a byte, the leftmost byte first; spaces between digits are passed over (30_encoding.md R45). The
first argument is a digit already read that waits for its partner. -/
def hexBytesFrom : Option Nat → List Char → Option (List Byte)
  | none, [] => some []
  | some _, [] => none
  | high, ' ' :: cs => hexBytesFrom high cs
  | none, c :: cs =>
    match hexDigit c with
    | some d => hexBytesFrom (some d) cs
    | none => none
  | some h, c :: cs =>
    match hexDigit c, hexBytesFrom none cs with
    | some d, some bs => some (BitVec.ofNat 8 (16 * h + d) :: bs)
    | _, _ => none

/-- The bytes of a hexadecimal operand. -/
def hexBytes (cs : List Char) : Option (List Byte) := hexBytesFrom none cs

/-- The text without the spaces around it. -/
def trimSpaces (cs : List Char) : List Char :=
  ((cs.dropWhile (· = ' ')).reverse.dropWhile (· = ' ')).reverse

/-- A decimal number, spaces around it passed over; none if it has no digit. -/
def decimal (cs : List Char) : Option Nat :=
  match trimSpaces cs with
  | [] => none
  | ds =>
    ds.foldl (init := some 0) fun acc c =>
      match acc with
      | some n => if '0' ≤ c ∧ c ≤ '9' then some (10 * n + (c.toNat - '0'.toNat)) else none
      | none => none

/-- Cut a text at every occurrence of a character. -/
def splitAtChar (sep : Char) : List Char → List (List Char)
  | [] => [[]]
  | c :: cs =>
    if c = sep then [] :: splitAtChar sep cs
    else
      match splitAtChar sep cs with
      | [] => [[c]]
      | l :: ls => (c :: l) :: ls

/-- A line of text without its comment: no command where nothing is left but spaces (DESIGN CHOICE, log entry 13), a
command, or an error (30_encoding.md R45, R46). -/
def parseLine (line : List Char) : Option (Option AsmLine) :=
  let text := (line.takeWhile (· ≠ ';')).dropWhile (· = ' ')
  let name := text.takeWhile (· ≠ ' ')
  let rest := text.drop name.length
  let blank := rest.all (· = ' ')
  if name = [] then some none
  else if name = "CLR".toList then if blank then some (some .clr) else none
  else if name = "FINAL".toList then if blank then some (some .final) else none
  else if name = "LDKEY".toList then (hexBytes rest).map fun bs => some (.ldkey bs)
  else if name = "ABSORB".toList then (hexBytes rest).map fun bs => some (.absorb bs)
  else if name = ".word".toList then
    match splitAtChar ',' rest with
    | [op, len] =>
      match decimal op, decimal len with
      | some o, some l => some (some (.word o l []))
      | _, _ => none
    | [op, len, hex] =>
      match decimal op, decimal len, hexBytes hex with
      | some o, some l, some bs => some (some (.word o l bs))
      | _, _, _ => none
    | _ => none
  else if name = "MAC".toList then
    match splitAtChar ',' rest with
    | [key, msg] =>
      match hexBytes key, hexBytes msg with
      | some k, some m => some (some (.mac k m))
      | _, _ => none
    | _ => none
  else none

/-- The words of a line of text: none for an error, and no word for a line that is blank or holds a comment only
(DESIGN CHOICE, log entry 13: 30_encoding.md R45 says that a line holds one command and that `;` opens a comment). -/
def assembleLine (line : List Char) : Option (List CmdWord) :=
  match parseLine line with
  | some (some l) => l.assemble
  | some none => some []
  | none => none

/-- The words of lines, in order. -/
def assembleLines : List (List Char) → Option (List CmdWord)
  | [] => some []
  | l :: ls =>
    match assembleLine l, assembleLines ls with
    | some ws, some vs => some (ws ++ vs)
    | _, _ => none

/-- The words of a program's text, one command a line (30_encoding.md R45). -/
def assembleText (text : List Char) : Option (List CmdWord) := assembleLines (splitAtChar '\n' text)

end Sys2Proof.Machine
end

