-- ==== Sys2Proof/Machine/Platform.lean ====
section
/-! DEFINITION. Several engine instances (60_exceptions.md R95): each has its own registers and ports, and
nothing is shared. -/

namespace Sys2Proof.Machine

/-- A platform's engine instances (60_exceptions.md R95). -/
abbrev Platform := List State

/-- One step of instance `i`; none if there is no such instance or its step stops. -/
def Platform.stepAt (i : Nat) (p : Platform) : Option Platform :=
  match p[i]? with
  | some s =>
    match step s with
    | .next t => some (p.set i t)
    | .fault _ => none
    | .refused _ => none
  | none => none

/-- The instances step in the order the platform chooses. -/
def Platform.run : List Nat → Platform → Option Platform
  | [], p => some p
  | i :: is, p =>
    match p.stepAt i with
    | some p' => Platform.run is p'
    | none => none

end Sys2Proof.Machine
end

