-- ==== Sys2Proof/Machine/Timing.lean ====
section
/-! DEFINITION. The latencies of 70_reset_and_hazards.md R101, R102, as functions beside the machine: no rule
reads them, so `step` does not (R105). -/

namespace Sys2Proof.Machine

/-- The cycles from the acceptance of a command to its response, by `OP`, `LEN` and `PHASE`: `T_FAULT` for a
faulting command or one answered in `ERROR`, else the command's own `T_*` (70_reset_and_hazards.md R101). -/
def latency (op : Op) (len : Len) (phase : Phase) : Nat :=
  match admission op len phase with
  | .execute =>
    match op with
    | .clr => 1 + Config.clrExtra len phase.bits
    | .ldkey => 1 + Config.ldkeyExtra len phase.bits
    | .absorb => 1 + Config.absorbExtra len phase.bits
    | .final => 1 + Config.finalExtra len phase.bits
  | .sticky => 1 + Config.faultExtra op.bits len phase.bits
  | .raises _ => 1 + Config.faultExtra op.bits len phase.bits

/-- The latency of a word accepted in a state (70_reset_and_hazards.md R101). -/
def wordLatency (w : CmdWord) (s : State) : Nat := latency (wordOp w) (wordLen w) s.PHASE

/-- The engine time of a sequence of words, each sent when the one before is answered
(70_reset_and_hazards.md R101). -/
def serveCycles : List CmdWord → State → Option Nat
  | [], _ => some 0
  | w :: ws, s =>
    match transact w s with
    | some (_, t) =>
      match serveCycles ws t with
      | some k => some (wordLatency w s + k)
      | none => none
    | none => none

end Sys2Proof.Machine
end

