-- ==== Sys2Proof/Safety.lean ====
section
/-! DEFINITION. The terms claims use: what a safe state is (10_state.md R21), the shape of a response
(30_encoding.md R43, R44), and what happens at the ports (70_reset_and_hazards.md R103, R104, R106). -/

namespace Sys2Proof.Safety

open Sys2Proof.Machine

/-- The fields of a response word as 30_encoding.md R43 and R44 limit them: bits 7 to 4 zero, no code above 4,
no tag with a fault code, and all tag lanes zero where there is no tag. -/
structure ResponseShape (q : RspWord) : Prop where
  reserved : q.extractLsb' 4 4 = 0
  status : (q.extractLsb' 0 3).toNat ≤ 4
  faultHasNoTag : q.extractLsb' 0 3 ≠ 0 → q.getLsbD 3 = false
  noTagLanes : q.getLsbD 3 = false → q.extractLsb' 8 128 = 0

/-- The invariant of 10_state.md R21, items 1 to 4, with the shape of a pending response (30_encoding.md R43)
and `cmd_ready = 0` while one is pending (70_reset_and_hazards.md R103 item 3). -/
structure Inv (s : State) : Prop where
  /-- R21 item 1. -/
  clamped : s.R &&& ~~~0x0ffffffc0ffffffc0ffffffc0fffffff#128 = 0
  /-- R21 item 2. -/
  canonical : s.ACC.toNat < 2 ^ 130 - 5
  /-- R21 item 3. -/
  wiped : s.PHASE = .idle ∨ s.PHASE = .error → s.R = 0 ∧ s.S = 0 ∧ s.ACC = 0
  /-- R21 item 4. -/
  errIffError : s.ERR ≠ .noFault ↔ s.PHASE = .error
  response : ∀ q, s.rsp = some q → ResponseShape q
  oneOutstanding : s.rsp.isSome → s.cmdReady = false

/-- The word `w` is accepted at the next port event: `cmd_valid = 1` and `cmd_ready = 1` at a rising edge
(70_reset_and_hazards.md R103 items 1 and 3). -/
def Accepts (s : State) (w : CmdWord) : Prop :=
  (∃ rspReady, s.inputs.head? = some (.edge true w rspReady)) ∧ s.rsp = none ∧ s.cmdReady = true

/-- The next port event is a reset, alone or after power is applied (70_reset_and_hazards.md R106, R107); that
power-up passes over all events to the first reset is DEDUCED, log entry 6. -/
def Resets (s : State) : Prop :=
  s.inputs.head? = some .resetLow ∨ (s.inputs.head? = some .powerUp ∧ .resetLow ∈ s.inputs)

/-- Power is applied next and no reset is among the events listed after it (70_reset_and_hazards.md R107; DEDUCED, log
entry 6). -/
def NeverReset (s : State) : Prop := s.inputs.head? = some .powerUp ∧ .resetLow ∉ s.inputs

/-- No command is outstanding: a run of the engine is over (70_reset_and_hazards.md R104). -/
def Over (s : State) : Prop := s.rsp = none

/-- A run is over and the engine is in `IDLE` (70_reset_and_hazards.md R104). -/
def Clean (s : State) : Prop := Over s ∧ s.PHASE = .idle

/-- The five registers of two states are equal (10_state.md R7). -/
def SameRegisters (s t : State) : Prop :=
  s.R = t.R ∧ s.S = t.S ∧ s.ACC = t.ACC ∧ s.PHASE = t.PHASE ∧ s.ERR = t.ERR

/-- Two states that nothing but the secrets tells apart: `PHASE`, `ERR` and the ports are the same
(10_state.md R14, 41_block_absorb.md R62). The tag lanes of a pending response are left out too. -/
def SamePublic (s t : State) : Prop :=
  s.PHASE = t.PHASE ∧ s.ERR = t.ERR ∧ s.cmdReady = t.cmdReady ∧
    s.rsp.map (·.extractLsb' 0 8) = t.rsp.map (·.extractLsb' 0 8)

/-- The response word of a code with no tag, written out: the status byte `0x00` to `0x04` and sixteen zero bytes
(30_encoding.md R43, R44). -/
def codeWord : ErrCode → RspWord
  | .noFault => 0x00#136
  | .keylen => 0x01#136
  | .blklen => 0x02#136
  | .seq => 0x03#136
  | .illegal => 0x04#136

/-- The response word with a tag, written out: the status byte `0x08`, then the tag as a number
(30_encoding.md R43). -/
def tagWord (tag : Nat) : RspWord := BitVec.ofNat 136 (256 * tag + 0x08)

/-- The state after the fault entry with code `f`, every field written out (60_exceptions.md R89). -/
def afterFault (f : ErrCode) (s : State) : State where
  R := 0
  S := 0
  ACC := 0
  PHASE := .error
  ERR := f
  rsp := some (codeWord f)
  cmdReady := false
  inputs := s.inputs

/-- The state after a command answered in `ERROR`: only the response is new (60_exceptions.md R90). -/
def afterSticky (s : State) : State := { s with rsp := some (codeWord s.ERR), cmdReady := false }

/-- The code of a command's own decode fault, if its `LEN` is illegal (30_encoding.md R39, last column). -/
def lenFault : Op → ErrCode
  | .clr => .illegal
  | .ldkey => .keylen
  | .absorb => .blklen
  | .final => .illegal

/-- The phases that admit a well-formed command (60_exceptions.md R83, 10_state.md R12). -/
def Admits : Phase → Op → Prop
  | .idle, op => op = .clr ∨ op = .ldkey
  | .keyed, op => op = .clr ∨ op = .absorb ∨ op = .final
  | .last, op => op = .clr ∨ op = .final
  | .error, op => op = .clr

end Sys2Proof.Safety
end

