-- ==== Sys2Proof/Certificates/Slice0/Obligations.lean ====
section
/-! DEFINITION. The statements for the provers. Each docstring names the rule or the section of spec/ that the
statement formalises. -/

open Sys2Proof Sys2Proof.Machine Sys2Proof.Safety

/-! ## Encoding -/

/-- 30_encoding.md R36, R38, R45 and 95_test_vectors.md §4.9: one word of each command, written out from the
fields' places. -/
def Obligations.WordOfEachCommandDecodes : Prop :=
  decode 0b00000000#264 = .clr 0 0 ∧
  decode 0b11010110_10000101_01_100000#264 = .ldkey 32 0xd685 ∧
  decode 0b01110000_01110101_10_000010#264 = .absorb 2 0x7075 ∧
  decode 0b11_000000#264 = .final 0 0 ∧
  decode 0b11_111111#264 = .final 63 0

/-- 30_encoding.md §1: decoding the byte form of a command gives it back with both operand fields, and leaves the
bytes after it. -/
def Obligations.DecodeOfEncodedBytes : Prop :=
  ∀ (i : Instr) (rest : List Byte), decodeBytes (encodeBytes i ++ rest) = .ok (i, rest)

/-- 30_encoding.md §1, §2 (the decoder is total): at least 33 bytes always decode, to a command whose byte form they
are; fewer never do. -/
def Obligations.EveryByteFormIsOneCommand : Prop :=
  ∀ bytes : List Byte,
    (33 ≤ bytes.length → ∃ i, decodeBytes bytes = .ok (i, bytes.drop 33) ∧ encodeBytes i = bytes.take 33) ∧
    (bytes.length < 33 → decodeBytes bytes = .error .truncated)

/-- 30_encoding.md §2: the header byte `h` alone decides between a legal command and a decode fault, by the ranges
listed there, and the command is well formed exactly when there is no decode fault. -/
def Obligations.HeaderByteDecidesDecodeFault : Prop :=
  ∀ w : CmdWord, ∀ h : Nat, h = w.toNat % 256 →
    (wordFault w =
      if h = 0x00 ∨ h = 0x60 ∨ (0x81 ≤ h ∧ h ≤ 0x90) ∨ h = 0xc0 then .noFault
      else if h ≤ 0x3f ∨ 0xc1 ≤ h then .illegal
      else if h ≤ 0x7f then .keylen
      else .blklen) ∧
    ((decode w).wellFormed = true ↔ wordFault w = .noFault)

/-! ## The four commands -/

/-- 43_control.md R68: `CLR`, its header byte, its effect in every phase and for every value of the lanes, which are
not read, its fault outside `ERROR`, and a `CLR` with `LEN ≠ 0` in `ERROR`. -/
def Obligations.ClrZeroisesAndLeavesError : Prop :=
  (∀ data : Data, (encode (.clr 0 data)).toNat = 256 * data.toNat + 0x00) ∧
  (∀ (data : Data) (s : State),
    exec (.clr 0 data) s =
      .next { R := 0, S := 0, ACC := 0, PHASE := .idle, ERR := .noFault, rsp := some 0#136, cmdReady := false,
              inputs := s.inputs }) ∧
  (∀ (len : Len) (data : Data) (s : State), len ≠ 0 → s.PHASE ≠ .error →
    exec (.clr len data) s = .next (afterFault .illegal s)) ∧
  (∀ (len : Len) (data : Data) (s : State), len ≠ 0 → s.PHASE = .error →
    exec (.clr len data) s = .next (afterSticky s))

/-- 40_key_load_clamp.md §2 (R53): `LDKEY`, its header byte, its effect in `IDLE`, its two faults, and `ERROR`. The
lanes are the number `data`: the first key half is its low 128 bits, the second its high 128 bits. -/
def Obligations.LdkeyLoadsClampedKey : Prop :=
  (∀ data : Data, (encode (.ldkey 32 data)).toNat = 256 * data.toNat + 0x60) ∧
  (∀ (data : Data) (s : State), s.PHASE = .idle →
    exec (.ldkey 32 data) s =
      .next { s with
        R := data.extractLsb' 0 128 &&& 0x0ffffffc0ffffffc0ffffffc0fffffff#128
        S := data.extractLsb' 128 128
        ACC := 0, PHASE := .keyed, rsp := some 0#136, cmdReady := false }) ∧
  (∀ (len : Len) (data : Data) (s : State), len ≠ 32 → s.PHASE ≠ .error →
    exec (.ldkey len data) s = .next (afterFault .keylen s)) ∧
  (∀ (data : Data) (s : State), s.PHASE = .keyed ∨ s.PHASE = .last →
    exec (.ldkey 32 data) s = .next (afterFault .seq s)) ∧
  (∀ (len : Len) (data : Data) (s : State), s.PHASE = .error →
    exec (.ldkey len data) s = .next (afterSticky s))

/-- 41_block_absorb.md §3 (R60): `ABSORB`, its header byte, its effect in `KEYED` for every legal length, its two
faults, and `ERROR`. The chunk of `L` bytes is `data` modulo `2^(8L)`. -/
def Obligations.AbsorbFoldsMarkedChunk : Prop :=
  (∀ (len : Len) (data : Data), (encode (.absorb len data)).toNat = 256 * data.toNat + (0x80 + len.toNat)) ∧
  (∀ (len : Len) (data : Data) (s : State), 1 ≤ len.toNat → len.toNat ≤ 16 → s.PHASE = .keyed →
    exec (.absorb len data) s =
      .next { s with
        ACC := BitVec.ofNat 130
          ((s.R.toNat * (s.ACC.toNat + (data.toNat % 2 ^ (8 * len.toNat) + 2 ^ (8 * len.toNat)))) %
            (2 ^ 130 - 5))
        PHASE := if len.toNat = 16 then .keyed else .last
        rsp := some 0#136, cmdReady := false }) ∧
  (∀ (len : Len) (data : Data) (s : State), len.toNat = 0 ∨ 16 < len.toNat → s.PHASE ≠ .error →
    exec (.absorb len data) s = .next (afterFault .blklen s)) ∧
  (∀ (len : Len) (data : Data) (s : State), 1 ≤ len.toNat → len.toNat ≤ 16 →
    s.PHASE = .idle ∨ s.PHASE = .last → exec (.absorb len data) s = .next (afterFault .seq s)) ∧
  (∀ (len : Len) (data : Data) (s : State), s.PHASE = .error →
    exec (.absorb len data) s = .next (afterSticky s))

/-- 42_finalize.md (R66): `FINAL`, its header byte, its effect in `KEYED` and `LAST`, its two faults, and `ERROR`. The
byte form of its response is `08` and the sixteen bytes of `(ACC + S) mod 2^128`. -/
def Obligations.FinalAnswersTagAndZeroises : Prop :=
  (∀ data : Data, (encode (.final 0 data)).toNat = 256 * data.toNat + 0xc0) ∧
  (∀ (data : Data) (s : State), s.PHASE = .keyed ∨ s.PHASE = .last →
    exec (.final 0 data) s =
      .next { s with
        R := 0, S := 0, ACC := 0, PHASE := .idle
        rsp := some (tagWord ((s.ACC.toNat + s.S.toNat) % 2 ^ 128)), cmdReady := false }) ∧
  (∀ a : Nat, rspBytes (tagWord (a % 2 ^ 128)) = 0x08#8 :: leEnc 16 a) ∧
  (∀ (len : Len) (data : Data) (s : State), len ≠ 0 → s.PHASE ≠ .error →
    exec (.final len data) s = .next (afterFault .illegal s)) ∧
  (∀ (data : Data) (s : State), s.PHASE = .idle → exec (.final 0 data) s = .next (afterFault .seq s)) ∧
  (∀ (len : Len) (data : Data) (s : State), s.PHASE = .error →
    exec (.final len data) s = .next (afterSticky s))

/-! ## Faults -/

/-- 60_exceptions.md R86: outside `ERROR` a decode fault is the one raised and recorded, whatever the phase, the
phase fault `SEQ` only where there is no decode fault; in `ERROR` no fault is raised and `ERR` keeps the first
cause. -/
def Obligations.DecodeFaultBeforePhaseFault : Prop :=
  (∀ (i : Instr) (s : State), s.PHASE ≠ .error → i.wellFormed = false →
    exec i s = .next (afterFault (lenFault i.op) s)) ∧
  (∀ (i : Instr) (s : State), s.PHASE ≠ .error → i.wellFormed = true → ¬Admits s.PHASE i.op →
    exec i s = .next (afterFault .seq s)) ∧
  (∀ (i : Instr) (s t : State), exec i s = .next t → s.PHASE = .error → t.PHASE = .error → t.ERR = s.ERR)

/-- 60_exceptions.md §1, "Nothing else faults": a well-formed command in an admitting phase never enters `ERROR`,
whatever its lanes and the registers hold, and its response says `OK`. -/
def Obligations.NothingElseFaults : Prop :=
  ∀ (i : Instr) (s : State), i.wellFormed = true → Admits s.PHASE i.op →
    ∃ t q, exec i s = .next t ∧ t.PHASE ≠ .error ∧ t.rsp = some q ∧ q.extractLsb' 0 3 = 0

/-- 60_exceptions.md R90: in `ERROR` every word but a well-formed `CLR` is answered with the recorded cause, and
nothing else changes; over every step, `ERROR` is left by a well-formed `CLR` or a reset only, and as long as it is
not left no register changes. -/
def Obligations.ErrorIsStickyUntilClrOrReset : Prop :=
  (∀ (i : Instr) (s : State), s.PHASE = .error → ¬(i.op = .clr ∧ i.len = 0) → exec i s = .next (afterSticky s)) ∧
  (∀ s t : State, s.PHASE = .error → step s = .next t →
    SameRegisters s t ∨ Resets s ∨ ∃ w data, Accepts s w ∧ decode w = .clr 0 data)

/-- 60_exceptions.md §2 (R88): the step function is total: every command in every state has a next state with exactly
one response on the port, which no further command may overtake. -/
def Obligations.EveryCommandIsAnswered : Prop :=
  ∀ (i : Instr) (s : State), ∃ t q, exec i s = .next t ∧ t.rsp = some q ∧ ResponseShape q ∧
    t.cmdReady = false ∧ t.inputs = s.inputs

/-- 60_exceptions.md §3 (R92): the complete transition table, row by row: the next `PHASE`, the response's `STATUS`, and
the rows' `z` and register effects, for a state that meets R21. -/
def Obligations.TransitionTable : Prop :=
  ∀ (i : Instr) (s : State), Inv s → ∃ t q, exec i s = .next t ∧ t.rsp = some q ∧
    (t.PHASE, q.extractLsb' 0 3) =
      (match s.PHASE, i.op, i.wellFormed with
      | .error, .clr, true => (Phase.idle, 0#3)
      | .error, _, _ => (Phase.error, (codeWord s.ERR).extractLsb' 0 3)
      | _, .clr, true => (Phase.idle, 0#3)
      | _, .clr, false => (Phase.error, 4#3)
      | _, .final, false => (Phase.error, 4#3)
      | _, .ldkey, false => (Phase.error, 1#3)
      | _, .absorb, false => (Phase.error, 2#3)
      | .idle, .ldkey, true => (Phase.keyed, 0#3)
      | _, .ldkey, true => (Phase.error, 3#3)
      | .keyed, .absorb, true => (if i.len = 16 then Phase.keyed else Phase.last, 0#3)
      | _, .absorb, true => (Phase.error, 3#3)
      | .idle, .final, true => (Phase.error, 3#3)
      | _, .final, true => (Phase.idle, 0#3)) ∧
    (t.PHASE = .idle ∨ t.PHASE = .error → t.R = 0 ∧ t.S = 0 ∧ t.ACC = 0) ∧
    (t.PHASE ≠ .error → t.ERR = .noFault)

/-- The frame of the commands (40_key_load_clamp.md §2, 41_block_absorb.md §3, 42_finalize.md, 60_exceptions.md §3):
what each leaves unchanged. There is no memory. -/
def Obligations.CommandFrames : Prop :=
  (∀ (i : Instr) (s t : State), exec i s = .next t → t.inputs = s.inputs) ∧
  (∀ (len : Len) (data : Data) (s t : State), exec (.absorb len data) s = .next t → t.PHASE ≠ .error →
    t.R = s.R ∧ t.S = s.S ∧ t.ERR = s.ERR) ∧
  (∀ (len : Len) (data : Data) (s t : State), exec (.ldkey len data) s = .next t → t.PHASE ≠ .error →
    t.ERR = s.ERR) ∧
  (∀ (len : Len) (data : Data) (s t : State), exec (.final len data) s = .next t → t.PHASE ≠ .error →
    t.ERR = s.ERR) ∧
  (∀ (i : Instr) (s t : State), exec i s = .next t → s.PHASE = .error → t.PHASE = .error → SameRegisters s t)

/-! ## Steps, ports, reset -/

/-- 70_reset_and_hazards.md §3 (R103 item 1), 60_exceptions.md §2: the word on the port at an edge with
`cmd_valid = cmd_ready = 1` is decoded and executed in that step; the step removes that port event and does nothing
else around the command. -/
def Obligations.StepRunsAcceptedWord : Prop :=
  ∀ (s : State) (w : CmdWord) (rspReady : Bool) (rest : List PortIn),
    s.inputs = .edge true w rspReady :: rest → s.rsp = none → s.cmdReady = true →
      step s = exec (decode w) { s with inputs := rest }

/-- 70_reset_and_hazards.md §3 (R103 items 3 to 5): a pending response stays, and no command is accepted, until an
edge with `rsp_ready = 1`, which clears the port and makes the engine ready. Without a pending response a ready
engine to which nothing is offered does not change, and one that is not yet ready becomes ready and accepts nothing
(that this takes one event is the model's choice, log entry 3). -/
def Obligations.ResponseHandshake : Prop :=
  ∀ (s : State) (v r : Bool) (w : CmdWord) (rest : List PortIn), s.inputs = .edge v w r :: rest →
    (∀ q, s.rsp = some q →
      (r = true → step s = .next { s with rsp := none, cmdReady := true, inputs := rest }) ∧
      (r = false → step s = .next { s with inputs := rest })) ∧
    (s.rsp = none → s.cmdReady = true → v = false → step s = .next { s with inputs := rest }) ∧
    (s.rsp = none → s.cmdReady = false → step s = .next { s with inputs := rest, cmdReady := true })

/-- 70_reset_and_hazards.md §3 (R103 item 6), 93_implementation_defined.md U15: a host that never raises `rsp_ready`
blocks the engine: through any number of edges the response and every register stay, whatever is offered. -/
def Obligations.UntakenResponseBlocksEngine : Prop :=
  ∀ (edges : List (Bool × CmdWord)) (s : State) (q : RspWord), s.rsp = some q →
    Host.Core.run Sys2Proof.core edges.length
        ({ s with inputs := edges.map fun e => PortIn.edge e.1 e.2 false } : State) =
      .next ({ s with inputs := [] } : State)

/-- 70_reset_and_hazards.md §3 (R105): a ready engine to which nothing is offered does not change through any number
of edges, whatever is on `cmd_word` and `rsp_ready`: the pace of the commands does not matter. -/
def Obligations.IdleEdgesChangeNothing : Prop :=
  ∀ (edges : List (CmdWord × Bool)) (s : State) (rest : List PortIn), s.rsp = none → s.cmdReady = true →
    Host.Core.run Sys2Proof.core edges.length
        ({ s with inputs := edges.map (fun e => PortIn.edge false e.1 e.2) ++ rest } : State) =
      .next ({ s with inputs := rest } : State)

/-- 70_reset_and_hazards.md §3 (R103 items 3, 4, 6), 20_memory.md §4 (R31): every sequence of command words is answered
to its end, with one response a word, and the run is over after it; a response with a tag leaves the engine clean
(R104) and with no key, addend or accumulator. -/
def Obligations.OneResponsePerCommand : Prop :=
  (∀ (ws : List CmdWord) (s : State), Over s →
    ∃ qs t, serve ws s = some (qs, t) ∧ qs.length = ws.length ∧ Over t ∧ ∀ q ∈ qs, ResponseShape q) ∧
  (∀ (w : CmdWord) (s t : State) (q : RspWord), transact w s = some (q, t) → q.getLsbD 3 = true →
    Clean t ∧ t.R = 0 ∧ t.S = 0 ∧ t.ACC = 0)

/-- 70_reset_and_hazards.md §3 (R104): a step into a computation is a well-formed `LDKEY` executed in `IDLE`; a step out
of one is a `FINAL` answered with the tag, a `CLR`, a fault or a reset, and leaves nothing of it. -/
def Obligations.ComputationBeginsAndEnds : Prop :=
  (∀ s t : State, step s = .next t → s.PHASE = .idle ∨ s.PHASE = .error → t.PHASE = .keyed ∨ t.PHASE = .last →
    s.PHASE = .idle ∧ t.PHASE = .keyed ∧ ∃ w data, Accepts s w ∧ decode w = .ldkey 32 data) ∧
  (∀ s t : State, step s = .next t → s.PHASE = .keyed ∨ s.PHASE = .last → t.PHASE = .idle ∨ t.PHASE = .error →
    t.R = 0 ∧ t.S = 0 ∧ t.ACC = 0 ∧
      (Resets s ∨ ∃ w, Accepts s w ∧
        ((∃ data, decode w = .clr 0 data ∧ t.PHASE = .idle) ∨
         (∃ data, decode w = .final 0 data ∧ t.PHASE = .idle) ∨
         (t.PHASE = .error ∧ t.ERR ≠ .noFault ∧ t.rsp = some (codeWord t.ERR)))))

/-- 70_reset_and_hazards.md §4, 10_state.md R19: a reset at any time, with anything pending, leaves every register
and port at its reset value; what the outside does next is kept. -/
def Obligations.ResetFromAnyState : Prop :=
  ∀ (s : State) (rest : List PortIn), s.inputs = .resetLow :: rest →
    step s = .next { R := 0, S := 0, ACC := 0, PHASE := .idle, ERR := .noFault, rsp := none, cmdReady := false,
                     inputs := rest } ∧
    ({ State.reset with inputs := rest } : State).status = 0b00000#5 ∧ State.reset.rspOut = 0#136

/-- No step faults (60_exceptions.md §2). The other clause is the model's choice, log entry 6 (DEDUCED), made from
93_implementation_defined.md U2 and 70_reset_and_hazards.md R107, which give an engine that was never reset no meaning:
power-up passes over all events to the first reset in one step, and is refused with `neverReset` exactly when no reset
is listed after it. -/
def Obligations.StepStopsOnlyWithoutReset : Prop :=
  ∀ s : State,
    (NeverReset s → step s = .refused .neverReset) ∧ (¬NeverReset s → ∃ t, step s = .next t)

/-- 10_state.md §9: the invariant holds at reset, whatever the outside does next. -/
def Obligations.InvHoldsAtReset : Prop := ∀ ins : List PortIn, Inv { State.reset with inputs := ins }

/-- 10_state.md §9 (R21 items 1 to 4), 30_encoding.md §3: every step from a state that meets the invariant leads to
one that does. -/
def Obligations.StepKeepsInv : Prop := ∀ s t : State, Inv s → step s = .next t → Inv t

/-- 10_state.md §9 (R21 item 5): a run that comes into `LAST` has executed a short `ABSORB` in `KEYED`, and has stayed
in `LAST` since, so no `LDKEY` has been executed after it. -/
def Obligations.LastMeansShortAbsorbSinceLdkey : Prop :=
  ∀ (n : Nat) (s₀ t : State), s₀.PHASE ≠ .last → Host.Core.run Sys2Proof.core n s₀ = .next t → t.PHASE = .last →
    ∃ (k : Nat) (s : State) (w : CmdWord) (len : Len) (data : Data),
      k < n ∧ Host.Core.run Sys2Proof.core k s₀ = .next s ∧ Accepts s w ∧ decode w = .absorb len data ∧
      1 ≤ len.toNat ∧ len.toNat ≤ 15 ∧ s.PHASE = .keyed ∧
      ∀ (j : Nat) (u : State), k < j → j ≤ n → Host.Core.run Sys2Proof.core j s₀ = .next u → u.PHASE = .last

/-- 70_reset_and_hazards.md §3, §4 (R103 item 5, R106): the five registers change by an accepted command or a reset
and by nothing else. -/
def Obligations.RegistersChangeOnlyByCommandOrReset : Prop :=
  ∀ s t : State, step s = .next t → (∀ w, ¬Accepts s w) → ¬Resets s → SameRegisters s t

/-- 30_encoding.md §3, 10_state.md §1 (R43, R8): a word with `TAGV = 1` comes onto the response port only by a
well-formed `FINAL` executed in `KEYED` or `LAST`. -/
def Obligations.TagOnlyFromExecutedFinal : Prop :=
  ∀ (s t : State) (q : RspWord), step s = .next t → t.rsp = some q → q.getLsbD 3 = true →
    s.rsp = some q ∨
      ((s.PHASE = .keyed ∨ s.PHASE = .last) ∧ ∃ w data, Accepts s w ∧ decode w = .final 0 data)

/-- 41_block_absorb.md §3 (R62), 70_reset_and_hazards.md §2 (R102), 10_state.md §3 (R14): two engines that differ in
nothing but secrets, given words with the same header, differ afterwards in nothing the host can see but the tag
lanes: not in `status`, the other response fields, the ports, or the time taken. -/
def Obligations.SecretsDoNotShow : Prop :=
  ∀ (w₁ w₂ : CmdWord) (s₁ s₂ : State), SamePublic s₁ s₂ → w₁.extractLsb' 0 8 = w₂.extractLsb' 0 8 →
    ∃ t₁ t₂, exec (decode w₁) s₁ = .next t₁ ∧ exec (decode w₂) s₂ = .next t₂ ∧ SamePublic t₁ t₂ ∧
      t₁.status = t₂.status ∧ wordLatency w₁ s₁ = wordLatency w₂ s₂ ∧ 1 ≤ wordLatency w₁ s₁

/-- 20_memory.md §3, 30_encoding.md §2 (R29, R41): lanes a command does not use have no effect: for `CLR` and `FINAL`
all of them, for `ABSORB` those from `LEN` on, for a command that is refused all of them. -/
def Obligations.UnusedLanesAreIgnored : Prop :=
  (∀ (len : Len) (d d' : Data) (s : State), exec (.clr len d) s = exec (.clr len d') s) ∧
  (∀ (len : Len) (d d' : Data) (s : State), exec (.final len d) s = exec (.final len d') s) ∧
  (∀ (len : Len) (d d' : Data) (s : State), (∀ i, i < len.toNat → lane d i = lane d' i) →
    exec (.absorb len d) s = exec (.absorb len d') s) ∧
  (∀ (op : Op) (len : Len) (d d' : Data) (s : State),
    (Instr.ofFields op len d).wellFormed = false ∨ ¬Admits s.PHASE op →
      exec (Instr.ofFields op len d) s = exec (Instr.ofFields op len d') s)

/-! ## Arithmetic -/

/-- 20_memory.md R24, R25: the two codecs byte by byte, each undoes the other, and the rules' examples. -/
def Obligations.LittleEndianCodec : Prop :=
  leDec [0x85, 0xd6, 0xbe, 0x78] = 0x78bed685 ∧ leEnc 4 0x178bed685 = [0x85, 0xd6, 0xbe, 0x78] ∧
  (∀ bs : List Byte,
    leDec bs = ((List.range bs.length).map fun i => (bs.getD i 0).toNat * 2 ^ (8 * i)).sum ∧
    leDec bs < 2 ^ (8 * bs.length) ∧ leEnc bs.length (leDec bs) = bs) ∧
  (∀ k v : Nat, (leEnc k v).length = k ∧ leDec (leEnc k v) = v % 2 ^ (8 * k) ∧
    ∀ i, i < k → ((leEnc k v).getD i 0).toNat = v / 2 ^ (8 * i) % 256)

/-- 40_key_load_clamp.md R51: the clamp byte by byte, and the bytes of the mask. -/
def Obligations.ClampBytewise : Prop :=
  leEnc 16 clampMask.toNat =
    [0xff, 0xff, 0xff, 0x0f, 0xfc, 0xff, 0xff, 0x0f, 0xfc, 0xff, 0xff, 0x0f, 0xfc, 0xff, 0xff, 0x0f] ∧
  ∀ (k : List Byte) (j : Nat), k.length = 16 → j < 16 →
    (leEnc 16 (clamp (BitVec.ofNat 128 (leDec k))).toNat).getD j 0 =
      if j = 3 ∨ j = 7 ∨ j = 11 ∨ j = 15 then k.getD j 0 &&& 0x0f
      else if j = 4 ∨ j = 8 ∨ j = 12 then k.getD j 0 &&& 0xfc
      else k.getD j 0

/-- 40_key_load_clamp.md R52, (a) to (e). -/
def Obligations.ClampProperties : Prop :=
  (∀ (x : BitVec 128) (i : Nat), i < 128 →
    (clamp x).getLsbD i =
      (x.getLsbD i && !((28 ≤ i && i ≤ 33) || (60 ≤ i && i ≤ 65) || (92 ≤ i && i ≤ 97) || (124 ≤ i && i ≤ 127)))) ∧
  (∀ x : BitVec 128, (clamp x).toNat ≤ clampMask.toNat ∧ clampMask.toNat < 2 ^ 124) ∧
  (∀ x : BitVec 128, clamp (clamp x) = clamp x) ∧
  (∀ x y : BitVec 128, x &&& clampMask = y &&& clampMask → clamp x = clamp y) ∧
  clamp 0 = 0 ∧ clamp (BitVec.allOnes 128) = clampMask

/-- 41_block_absorb.md R56: (a) the range and the bit length of a block integer; (b) it is not 0, gives back the
length, and two chunks never share one; (c) zero-padding is a different value. It is the integer of the chunk's
bytes with the byte `01` after them, and the block encoder gives it of the first `L` lanes (R55). -/
def Obligations.BlockIntegerTellsChunksApart : Prop :=
  (∀ (data : Data) (L : Nat), blkEnc data L = blockInt (lanes data L)) ∧
  (∀ c : List Byte, blockInt c = leDec (c ++ [0x01#8])) ∧
  (∀ c : List Byte, 1 ≤ c.length → c.length ≤ 16 →
    2 ^ (8 * c.length) ≤ blockInt c ∧ blockInt c < 2 ^ (8 * c.length + 1) ∧
    256 ≤ blockInt c ∧ blockInt c < 2 ^ 129 ∧ Nat.log2 (blockInt c) + 1 = 8 * c.length + 1) ∧
  (∀ c : List Byte, blockInt c ≠ 0 ∧ Nat.log2 (blockInt c) / 8 = c.length) ∧
  (∀ c d : List Byte, blockInt c = blockInt d → c = d) ∧
  (∀ c : List Byte, c.length < 16 →
    blockInt c ≠ leDec c + 2 ^ 128 ∧
    blockInt (c ++ List.replicate (16 - c.length) 0) = leDec c + 2 ^ 128)

/-- 41_block_absorb.md §2 (R59): the division-free reduction is the remainder modulo `P`. -/
def Obligations.ReduceIsModP : Prop := ∀ x : Nat, x < 2 ^ 255 → reduce x = x % (2 ^ 130 - 5)

/-- 41_block_absorb.md §2 (R58): the intermediate values of an `ABSORB` in any state that meets R21 stay within the
bounds of the table there, so that `REDUCE` computes the step. -/
def Obligations.AbsorbIntermediatesAreBounded : Prop :=
  ∀ (s : State) (data : Data) (L : Nat), Inv s → 1 ≤ L → L ≤ 16 →
    blkEnc data L ≤ 2 ^ 129 - 1 ∧
    s.ACC.toNat + blkEnc data L ≤ 2 ^ 130 + 2 ^ 129 - 7 ∧
    s.R.toNat < 2 ^ 124 ∧
    s.R.toNat * (s.ACC.toNat + blkEnc data L) < 2 ^ 255 ∧
    reduce (s.R.toNat * (s.ACC.toNat + blkEnc data L)) = macstep s.ACC.toNat (blkEnc data L) s.R.toNat

/-! ## The whole message -/

/-- 44_compute_tag.md R70: the chunks of a message. -/
def Obligations.ChunksCutTheMessage : Prop :=
  ∀ msg : List Byte,
    (chunks msg).length = (msg.length + 15) / 16 ∧ (chunks msg).flatten = msg ∧
    (∀ i, i < (chunks msg).length →
      (chunks msg).getD i [] = (msg.take (min (16 * (i + 1)) msg.length)).drop (16 * i) ∧
      ((chunks msg).getD i []).length =
        if i + 1 = (chunks msg).length then msg.length - 16 * i else 16) ∧
    (∀ c ∈ chunks msg, 1 ≤ c.length ∧ c.length ≤ 16)

/-- 44_compute_tag.md §3 (R73, R74): `MAC` on an engine in `IDLE` is answered `OK` at each of its `2 + q` commands, ends
with the tag that TBK's fold computes, and leaves the engine zeroised in `IDLE`; no fault can occur. The host is that
of log entry 2, and that `cmd_ready` is 1 in the state after the last response is taken is the model's choice, log
entry 3 (DESIGN CHOICE). -/
def Obligations.MacComputesTag : Prop :=
  ∀ (key msg : List Byte) (s : State), key.length = 32 → s.PHASE = .idle →
    ∃ tag, computeTag msg key = some tag ∧ tag.length = 16 ∧
      runMac key msg s =
        some (List.replicate (1 + chunkCount msg.length) 0#136 ++ [tagWord (leDec tag)],
          { s with R := 0, S := 0, ACC := 0, PHASE := .idle, rsp := none, cmdReady := true })

/-- 44_compute_tag.md §3 (R74), the closed form of the fold. -/
def Obligations.TagIsPolynomialInR : Prop :=
  ∀ msg key : List Byte, key.length = 32 →
    computeTag msg key =
      some (leEnc 16
        ((((List.range (chunkCount msg.length)).map fun i =>
            blockInt ((chunks msg).getD i []) * keyR key ^ (chunkCount msg.length - i)).sum % (2 ^ 130 - 5) +
          leDec (key.drop 16)) % 2 ^ 128))

/-- 44_compute_tag.md §4 (R76 items 2, 3) and §3 (R74): the tag has 16 bytes, the tag of the empty message is the second
key half, and there is no tag under a key of another length. -/
def Obligations.TagLengthAndEmptyMessage : Prop :=
  (∀ msg key : List Byte, key.length = 32 → ∃ tag, computeTag msg key = some tag ∧ tag.length = 16) ∧
  (∀ key : List Byte, key.length = 32 → computeTag [] key = some (key.drop 16)) ∧
  (∀ msg key : List Byte, key.length ≠ 32 → computeTag msg key = none)

/-- 44_compute_tag.md §4 (R76 item 5): bits of the first key half that the mask clears do not change the tag. -/
def Obligations.ClampedKeyBitsDoNotMatter : Prop :=
  ∀ msg k k' : List Byte, k.length = 32 → k'.length = 32 → k.drop 16 = k'.drop 16 →
    leDec (k.take 16) &&& 0x0ffffffc0ffffffc0ffffffc0fffffff =
      leDec (k'.take 16) &&& 0x0ffffffc0ffffffc0ffffffc0fffffff →
    computeTag msg k = computeTag msg k'

/-- 44_compute_tag.md §4 (R76 item 6): any change of the second key half changes the tag. -/
def Obligations.SecondKeyHalfAlwaysMatters : Prop :=
  ∀ msg k k' : List Byte, k.length = 32 → k'.length = 32 → k.take 16 = k'.take 16 → k ≠ k' →
    computeTag msg k ≠ computeTag msg k'

/-- 44_compute_tag.md §4 (R76 item 4): the tags of a 16-byte message and of that message with one byte more are equal
exactly when the two accumulators agree modulo `2^128`. -/
def Obligations.BlockBoundaryTagsEqualIff : Prop :=
  ∀ (msg key : List Byte) (b : Byte), msg.length = 16 → key.length = 32 →
    (computeTag msg key = computeTag (msg ++ [b]) key ↔
      macstep 0 (leDec msg + 2 ^ 128) (keyR key) % 2 ^ 128 =
        macstep (macstep 0 (leDec msg + 2 ^ 128) (keyR key)) (b.toNat + 2 ^ 8) (keyR key) % 2 ^ 128)

/-- 40_key_load_clamp.md §2 (R53, corner cases), 41_block_absorb.md §3 (R60 (c)): under a key whose first half clamps to
zero every message has the second half as its tag. -/
def Obligations.ZeroMultiplierTagIsSecondHalf : Prop :=
  ∀ msg key : List Byte, key.length = 32 → keyR key = 0 → computeTag msg key = some (key.drop 16)

/-- 44_compute_tag.md §3 (end of R74), 60_exceptions.md §1 (R81): with a key of another length there is no tag: the
`LDKEY` and every command after it, the `FINAL` included, is answered `KEYLEN`, and the engine stays in `ERROR` with
nothing of the key. What the spec does not say and the model chooses: that the host sends the commands of `MAC` with
such a key at all, with its length in `LEN` and 63 there for every length above 63 (log entry 14, DESIGN CHOICE), and
that `cmd_ready` is 1 in the state after the last response is taken (log entry 3, DESIGN CHOICE). -/
def Obligations.WrongKeyLengthGivesNoTag : Prop :=
  ∀ (key msg : List Byte) (s : State), key.length ≠ 32 → s.PHASE = .idle →
    runMac key msg s =
      some (List.replicate (2 + chunkCount msg.length) 0x01#136,
        { s with R := 0, S := 0, ACC := 0, PHASE := .error, ERR := .keylen, rsp := none, cmdReady := true })

/-- 42_finalize.md (R67): after an executed `FINAL` the five registers are those of the reset state, whatever the
computation was. -/
def Obligations.NothingSurvivesFinal : Prop :=
  ∀ (data : Data) (s : State), Inv s → s.PHASE = .keyed ∨ s.PHASE = .last →
    ∃ t, exec (.final 0 data) s = .next t ∧ SameRegisters t State.reset

/-- 70_reset_and_hazards.md §2 (R101): the engine time of a whole computation is the sum of the commands' latencies: one
`LDKEY`, one `ABSORB` for each chunk, one `FINAL`. -/
def Obligations.EngineTimeOfMac : Prop :=
  ∀ (key msg : List Byte) (s : State), key.length = 32 → s.PHASE = .idle →
    serveCycles ((macProgram key msg).map encode) s =
      some (latency .ldkey 32 .idle +
        (((chunks msg).map fun c => latency .absorb (BitVec.ofNat 6 c.length) .keyed).sum +
          latency .final 0 (if msg.length % 16 = 0 then .keyed else .last)))

/-! ## Several engines, the assembler, status -/

/-- 60_exceptions.md §4 (R95): whatever order the platform steps its instances in, each instance ends where it would
have ended alone, stepping as often as it was chosen. -/
def Obligations.InstancesShareNothing : Prop :=
  ∀ (schedule : List Nat) (p p' : Platform), Platform.run schedule p = some p' →
    p'.length = p.length ∧
    ∀ (i : Nat) (s : State), p[i]? = some s →
      ∃ t, p'[i]? = some t ∧ Host.Core.run Sys2Proof.core (schedule.count i) s = .next t

/-- 30_encoding.md §4 (R45): the assembled words of `LDKEY` and `ABSORB` carry the bytes written, the leftmost in lane
0, with their number in `LEN` and `00` in the other lanes. -/
def Obligations.AssembledLanesAreTheBytesWritten : Prop :=
  (∀ key : List Byte, key.length = 32 →
    ∃ w data, AsmLine.assemble (.ldkey key) = some [w] ∧ decode w = .ldkey 32 data ∧ lanes data 32 = key) ∧
  (∀ chunk : List Byte, 1 ≤ chunk.length → chunk.length ≤ 16 →
    ∃ w len data, AsmLine.assemble (.absorb chunk) = some [w] ∧ decode w = .absorb len data ∧
      len.toNat = chunk.length ∧ lanes data 32 = chunk ++ List.replicate (32 - chunk.length) 0)

/-- 10_state.md R14: `status` shows `PHASE` in its bits 1 to 0 and `ERR` in its bits 4 to 2, in every state, and so
carries nothing of the other registers; in states that meet R21 it takes seven values (95_test_vectors.md §4.8). -/
def Obligations.StatusShowsPhaseAndErr : Prop :=
  (∀ s : State, s.status.extractLsb' 0 2 = s.PHASE.bits ∧ s.status.extractLsb' 2 3 = s.ERR.bits) ∧
  (∀ s t : State, s.PHASE = t.PHASE → s.ERR = t.ERR → s.status = t.status) ∧
  (∀ s : State, Inv s →
    s.status ∈ [0b00000#5, 0b00001#5, 0b00010#5, 0b00111#5, 0b01011#5, 0b01111#5, 0b10011#5])
end

