-- ==== Sys2Proof/Laws/Codec.lean ====
section
/-! SUPPORT. The little-endian codec, the lanes and the block encoder as arithmetic on numbers
(20_memory.md R24, R25, 41_block_absorb.md R55). -/

namespace Sys2Proof

theorem leEnc_length (k v : Nat) : (leEnc k v).length = k := by
  induction k generalizing v with
  | zero => rfl
  | succ k ih => simp [leEnc, ih]

theorem leDec_lt (bs : List Byte) : leDec bs < 2 ^ (8 * bs.length) := by
  induction bs with
  | nil => simp [leDec]
  | cons b bs ih =>
    have hb := b.isLt
    have hp : 2 ^ (8 * (bs.length + 1)) = 256 * 2 ^ (8 * bs.length) := by
      rw [Nat.mul_add, Nat.pow_add]; omega
    simp only [leDec, List.length_cons, hp]
    omega

theorem leDec_append (xs ys : List Byte) :
    leDec (xs ++ ys) = leDec xs + 2 ^ (8 * xs.length) * leDec ys := by
  induction xs with
  | nil => simp [leDec]
  | cons x xs ih =>
    have hp : 2 ^ (8 * (xs.length + 1)) = 256 * 2 ^ (8 * xs.length) := by
      rw [Nat.mul_add, Nat.pow_add]; omega
    simp only [List.cons_append, leDec, List.length_cons, ih, hp]
    ring

/-- Encoding drops the bits at and above `8k` (20_memory.md R25). -/
theorem leDec_leEnc (k v : Nat) : leDec (leEnc k v) = v % 2 ^ (8 * k) := by
  induction k generalizing v with
  | zero => simp [leEnc, leDec, Nat.mod_one]
  | succ k ih =>
    have hp : 2 ^ (8 * (k + 1)) = 256 * 2 ^ (8 * k) := by rw [Nat.mul_add, Nat.pow_add]; omega
    simp only [leEnc, leDec, ih, hp, BitVec.toNat_ofNat, Nat.mod_mul]

/-- A byte string is the encoding of its number (20_memory.md R25). -/
theorem leEnc_leDec (bs : List Byte) : leEnc bs.length (leDec bs) = bs := by
  induction bs with
  | nil => rfl
  | cons b bs ih =>
    have hb := b.isLt
    have h1 : BitVec.ofNat 8 (b.toNat + 256 * leDec bs) = b := by
      apply BitVec.eq_of_toNat_eq; rw [BitVec.toNat_ofNat]; omega
    have h2 : (b.toNat + 256 * leDec bs) / 256 = leDec bs := by omega
    simp only [List.length_cons, leDec, leEnc, h1, h2, ih]

theorem leDec_inj {xs ys : List Byte} (hl : xs.length = ys.length) (h : leDec xs = leDec ys) : xs = ys := by
  rw [← leEnc_leDec xs, ← leEnc_leDec ys, hl, h]

namespace Machine

theorem lanes_length {n : Nat} (bus : BitVec n) (k : Nat) : (lanes bus k).length = k := by simp [lanes]

theorem lanes_succ {n : Nat} (bus : BitVec n) (k : Nat) : lanes bus (k + 1) = lanes bus k ++ [lane bus k] := by
  simp [lanes, List.range_succ]

/-- The first `k` lanes carry the number modulo `2^(8k)`. -/
theorem leDec_lanes {n : Nat} (bus : BitVec n) (k : Nat) : leDec (lanes bus k) = bus.toNat % 2 ^ (8 * k) := by
  induction k with
  | zero => simp [lanes, leDec, Nat.mod_one]
  | succ k ih =>
    rw [lanes_succ, leDec_append, ih, lanes_length, Nat.mul_add, Nat.pow_add, Nat.mod_mul]
    simp [leDec, lane, BitVec.extractLsb'_toNat, Nat.shiftRight_eq_div_pow]

theorem lanes_take {n : Nat} (bus : BitVec n) {j k : Nat} (h : j ≤ k) : (lanes bus k).take j = lanes bus j := by
  simp [lanes, ← List.map_take, List.take_range, Nat.min_eq_left h]

theorem leDec_keyLow (data : Data) : leDec (keyLow data) = data.toNat % 2 ^ 128 := by
  rw [keyLow, lanes_take data (by decide), leDec_lanes]

theorem leDec_keyHigh (data : Data) : leDec (keyHigh data) = data.toNat / 2 ^ 128 := by
  have h : leDec (lanes data 32) = leDec (keyLow data) + 2 ^ 128 * leDec (keyHigh data) := by
    have hs : lanes data 32 = keyLow data ++ keyHigh data := (List.take_append_drop 16 _).symm
    have hl : (keyLow data).length = 16 := by simp [keyLow, lanes_length, Config.keyBytes]
    rw [hs, leDec_append, hl]
  rw [leDec_lanes, leDec_keyLow, Nat.mod_eq_of_lt data.isLt] at h
  omega

/-- `BLK_enc` as a number (41_block_absorb.md R55). -/
theorem blkEnc_eq (data : Data) (L : Nat) : blkEnc data L = data.toNat % 2 ^ (8 * L) + 2 ^ (8 * L) := by
  simp [blkEnc, blockInt, chunkOf, leDec_lanes, lanes_length]

/-- A byte string of at most 32 bytes comes back from the bus it was put on (30_encoding.md R45). -/
theorem lanes_busOfBytes (bs : List Byte) (h : bs.length ≤ 32) : lanes (busOfBytes bs) bs.length = bs := by
  have hlt : leDec bs < 2 ^ 256 :=
    Nat.lt_of_lt_of_le (leDec_lt bs) (Nat.pow_le_pow_right (by decide) (by omega))
  apply leDec_inj (lanes_length _ _)
  rw [leDec_lanes, busOfBytes, BitVec.toNat_ofNat, Nat.mod_eq_of_lt hlt, Nat.mod_eq_of_lt (leDec_lt bs)]

end Machine

end Sys2Proof
end

