-- ==== Sys2Proof/Laws/Arith.lean ====
section
/-! SUPPORT. Bounds of the arithmetic (41_block_absorb.md R57, R58) and the response word as a number
(30_encoding.md R43). -/

namespace Sys2Proof.Machine

theorem P_pos : 0 < P := by decide

theorem P_eq : P = 2 ^ 130 - 5 := rfl

theorem P_lt : P < 2 ^ 130 := by decide

/-- The multiply-accumulate step answers the canonical residue (41_block_absorb.md R57). -/
theorem macstep_lt (a n r : Nat) : macstep a n r < P := Nat.mod_lt _ P_pos

theorem macstep_toNat (a n r : Nat) : (BitVec.ofNat 130 (macstep a n r)).toNat = macstep a n r := by
  rw [BitVec.toNat_ofNat, Nat.mod_eq_of_lt (Nat.lt_trans (macstep_lt a n r) P_lt)]

theorem tagval_lt (a s : Nat) : tagval a s < 2 ^ 128 := Nat.mod_lt _ (by decide)

/-- A clamped value is at most the mask (40_key_load_clamp.md R52 (b)). -/
theorem clamp_le (x : BitVec 128) : (clamp x).toNat ≤ 0x0ffffffc0ffffffc0ffffffc0fffffff := by
  rw [clamp, BitVec.toNat_and]
  exact Nat.and_le_right

/-- The cleared bits of a clamped value are zero (10_state.md R9). -/
theorem clamp_cleared (x : BitVec 128) : clamp x &&& ~~~clampMask = 0 := by
  rw [clamp, BitVec.and_assoc, show clampMask &&& ~~~clampMask = 0#128 by decide]
  exact BitVec.and_zero

/-- A concatenation as a number. -/
theorem toNat_append_eq {n m : Nat} (x : BitVec n) (y : BitVec m) :
    (x ++ y).toNat = 2 ^ m * x.toNat + y.toNat := by
  rw [BitVec.toNat_append, ← Nat.shiftLeft_add_eq_or_of_lt y.isLt, Nat.shiftLeft_eq, Nat.mul_comm]

theorem rspWord_toNat (c : ErrCode) (v : Bool) (tag : BitVec 128) :
    (rspWord c v tag).toNat = 256 * tag.toNat + (8 * v.toNat + c.bits.toNat) := by
  have h : (0#4 ++ (BitVec.ofBool v ++ c.bits)).toNat = 8 * v.toNat + c.bits.toNat := by
    rw [toNat_append_eq, toNat_append_eq]; cases c <;> cases v <;> rfl
  rw [rspWord, toNat_append_eq, h]
  rfl

theorem rspWord_header (c : ErrCode) (v : Bool) (tag : BitVec 128) :
    (rspWord c v tag).extractLsb' 0 8 = 0#4 ++ (BitVec.ofBool v ++ c.bits) := by
  apply BitVec.eq_of_toNat_eq
  rw [BitVec.extractLsb'_toNat, rspWord_toNat]
  cases c <;> cases v <;> simp [ErrCode.bits]

theorem rspWord_status (c : ErrCode) (v : Bool) (tag : BitVec 128) :
    (rspWord c v tag).extractLsb' 0 3 = c.bits := by
  apply BitVec.eq_of_toNat_eq
  rw [BitVec.extractLsb'_toNat, rspWord_toNat]
  cases c <;> cases v <;> simp [ErrCode.bits] <;> omega

theorem rspWord_reserved (c : ErrCode) (v : Bool) (tag : BitVec 128) :
    (rspWord c v tag).extractLsb' 4 4 = 0 := by
  apply BitVec.eq_of_toNat_eq
  rw [BitVec.extractLsb'_toNat, rspWord_toNat, Nat.shiftRight_eq_div_pow]
  cases c <;> cases v <;> simp [ErrCode.bits] <;> omega

theorem rspWord_tagv (c : ErrCode) (v : Bool) (tag : BitVec 128) : (rspWord c v tag).getLsbD 3 = v := by
  rw [BitVec.getLsbD, rspWord_toNat, Nat.testBit_eq_decide_div_mod_eq]
  cases c <;> cases v <;> simp [ErrCode.bits] <;> omega

theorem rspWord_tag (c : ErrCode) (v : Bool) (tag : BitVec 128) :
    (rspWord c v tag).extractLsb' 8 128 = tag := by
  apply BitVec.eq_of_toNat_eq
  have ht := tag.isLt
  rw [BitVec.extractLsb'_toNat, rspWord_toNat, Nat.shiftRight_eq_div_pow]
  cases c <;> cases v <;> simp [ErrCode.bits] <;> omega

end Sys2Proof.Machine
end

