-- ==== Sys2Proof/Laws/State.lean ====
section
/-! SUPPORT. What each shared operation does to each field of the state: one lemma a field. -/

namespace Sys2Proof.Machine

@[simp] theorem zeroise_R (s : State) : (zeroise s).R = 0 := rfl
@[simp] theorem zeroise_S (s : State) : (zeroise s).S = 0 := rfl
@[simp] theorem zeroise_ACC (s : State) : (zeroise s).ACC = 0 := rfl
@[simp] theorem zeroise_PHASE (s : State) : (zeroise s).PHASE = s.PHASE := rfl
@[simp] theorem zeroise_ERR (s : State) : (zeroise s).ERR = s.ERR := rfl
@[simp] theorem zeroise_rsp (s : State) : (zeroise s).rsp = s.rsp := rfl
@[simp] theorem zeroise_cmdReady (s : State) : (zeroise s).cmdReady = s.cmdReady := rfl
@[simp] theorem zeroise_inputs (s : State) : (zeroise s).inputs = s.inputs := rfl

@[simp] theorem emit_R (q : RspWord) (s : State) : (emit q s).R = s.R := rfl
@[simp] theorem emit_S (q : RspWord) (s : State) : (emit q s).S = s.S := rfl
@[simp] theorem emit_ACC (q : RspWord) (s : State) : (emit q s).ACC = s.ACC := rfl
@[simp] theorem emit_PHASE (q : RspWord) (s : State) : (emit q s).PHASE = s.PHASE := rfl
@[simp] theorem emit_ERR (q : RspWord) (s : State) : (emit q s).ERR = s.ERR := rfl
@[simp] theorem emit_rsp (q : RspWord) (s : State) : (emit q s).rsp = some q := rfl
@[simp] theorem emit_cmdReady (q : RspWord) (s : State) : (emit q s).cmdReady = false := rfl
@[simp] theorem emit_inputs (q : RspWord) (s : State) : (emit q s).inputs = s.inputs := rfl

@[simp] theorem respond_R (c : ErrCode) (s : State) : (respond c s).R = s.R := rfl
@[simp] theorem respond_S (c : ErrCode) (s : State) : (respond c s).S = s.S := rfl
@[simp] theorem respond_ACC (c : ErrCode) (s : State) : (respond c s).ACC = s.ACC := rfl
@[simp] theorem respond_PHASE (c : ErrCode) (s : State) : (respond c s).PHASE = s.PHASE := rfl
@[simp] theorem respond_ERR (c : ErrCode) (s : State) : (respond c s).ERR = s.ERR := rfl
@[simp] theorem respond_rsp (c : ErrCode) (s : State) : (respond c s).rsp = some (rspWord c false 0) := rfl
@[simp] theorem respond_cmdReady (c : ErrCode) (s : State) : (respond c s).cmdReady = false := rfl
@[simp] theorem respond_inputs (c : ErrCode) (s : State) : (respond c s).inputs = s.inputs := rfl

@[simp] theorem respondTag_R (t : List Byte) (s : State) : (respondTag t s).R = s.R := rfl
@[simp] theorem respondTag_S (t : List Byte) (s : State) : (respondTag t s).S = s.S := rfl
@[simp] theorem respondTag_ACC (t : List Byte) (s : State) : (respondTag t s).ACC = s.ACC := rfl
@[simp] theorem respondTag_PHASE (t : List Byte) (s : State) : (respondTag t s).PHASE = s.PHASE := rfl
@[simp] theorem respondTag_ERR (t : List Byte) (s : State) : (respondTag t s).ERR = s.ERR := rfl
@[simp] theorem respondTag_rsp (t : List Byte) (s : State) :
    (respondTag t s).rsp = some (rspWord .noFault true (BitVec.ofNat 128 (leDec t))) := rfl
@[simp] theorem respondTag_cmdReady (t : List Byte) (s : State) : (respondTag t s).cmdReady = false := rfl
@[simp] theorem respondTag_inputs (t : List Byte) (s : State) : (respondTag t s).inputs = s.inputs := rfl

@[simp] theorem raise_R (f : ErrCode) (s : State) : (raise f s).R = 0 := rfl
@[simp] theorem raise_S (f : ErrCode) (s : State) : (raise f s).S = 0 := rfl
@[simp] theorem raise_ACC (f : ErrCode) (s : State) : (raise f s).ACC = 0 := rfl
@[simp] theorem raise_PHASE (f : ErrCode) (s : State) : (raise f s).PHASE = .error := rfl
@[simp] theorem raise_ERR (f : ErrCode) (s : State) : (raise f s).ERR = f := rfl
@[simp] theorem raise_rsp (f : ErrCode) (s : State) : (raise f s).rsp = some (rspWord f false 0) := rfl
@[simp] theorem raise_cmdReady (f : ErrCode) (s : State) : (raise f s).cmdReady = false := rfl
@[simp] theorem raise_inputs (f : ErrCode) (s : State) : (raise f s).inputs = s.inputs := rfl

@[simp] theorem clearEngine_R (s : State) : (clearEngine s).R = 0 := rfl
@[simp] theorem clearEngine_S (s : State) : (clearEngine s).S = 0 := rfl
@[simp] theorem clearEngine_ACC (s : State) : (clearEngine s).ACC = 0 := rfl
@[simp] theorem clearEngine_PHASE (s : State) : (clearEngine s).PHASE = .idle := rfl
@[simp] theorem clearEngine_ERR (s : State) : (clearEngine s).ERR = .noFault := rfl
@[simp] theorem clearEngine_rsp (s : State) : (clearEngine s).rsp = some (rspWord .noFault false 0) := rfl
@[simp] theorem clearEngine_cmdReady (s : State) : (clearEngine s).cmdReady = false := rfl
@[simp] theorem clearEngine_inputs (s : State) : (clearEngine s).inputs = s.inputs := rfl

@[simp] theorem loadKey_R (d : Data) (s : State) :
    (loadKey d s).R = clamp (BitVec.ofNat 128 (leDec (keyLow d))) := rfl
@[simp] theorem loadKey_S (d : Data) (s : State) : (loadKey d s).S = BitVec.ofNat 128 (leDec (keyHigh d)) := rfl
@[simp] theorem loadKey_ACC (d : Data) (s : State) : (loadKey d s).ACC = 0 := rfl
@[simp] theorem loadKey_PHASE (d : Data) (s : State) : (loadKey d s).PHASE = .keyed := rfl
@[simp] theorem loadKey_ERR (d : Data) (s : State) : (loadKey d s).ERR = s.ERR := rfl
@[simp] theorem loadKey_rsp (d : Data) (s : State) : (loadKey d s).rsp = some (rspWord .noFault false 0) := rfl
@[simp] theorem loadKey_cmdReady (d : Data) (s : State) : (loadKey d s).cmdReady = false := rfl
@[simp] theorem loadKey_inputs (d : Data) (s : State) : (loadKey d s).inputs = s.inputs := rfl

@[simp] theorem absorbBlock_R (L : Nat) (d : Data) (s : State) : (absorbBlock L d s).R = s.R := rfl
@[simp] theorem absorbBlock_S (L : Nat) (d : Data) (s : State) : (absorbBlock L d s).S = s.S := rfl
@[simp] theorem absorbBlock_ACC (L : Nat) (d : Data) (s : State) :
    (absorbBlock L d s).ACC = BitVec.ofNat 130 (macstep s.ACC.toNat (blkEnc d L) s.R.toNat) := rfl
@[simp] theorem absorbBlock_PHASE (L : Nat) (d : Data) (s : State) :
    (absorbBlock L d s).PHASE = if L = 16 then .keyed else .last := rfl
@[simp] theorem absorbBlock_ERR (L : Nat) (d : Data) (s : State) : (absorbBlock L d s).ERR = s.ERR := rfl
@[simp] theorem absorbBlock_rsp (L : Nat) (d : Data) (s : State) :
    (absorbBlock L d s).rsp = some (rspWord .noFault false 0) := rfl
@[simp] theorem absorbBlock_cmdReady (L : Nat) (d : Data) (s : State) : (absorbBlock L d s).cmdReady = false := rfl
@[simp] theorem absorbBlock_inputs (L : Nat) (d : Data) (s : State) : (absorbBlock L d s).inputs = s.inputs := rfl

@[simp] theorem finish_R (s : State) : (finish s).R = 0 := rfl
@[simp] theorem finish_S (s : State) : (finish s).S = 0 := rfl
@[simp] theorem finish_ACC (s : State) : (finish s).ACC = 0 := rfl
@[simp] theorem finish_PHASE (s : State) : (finish s).PHASE = .idle := rfl
@[simp] theorem finish_ERR (s : State) : (finish s).ERR = s.ERR := rfl
@[simp] theorem finish_rsp (s : State) :
    (finish s).rsp =
      some (rspWord .noFault true (BitVec.ofNat 128 (leDec (leEnc 16 (tagval s.ACC.toNat s.S.toNat))))) := rfl
@[simp] theorem finish_cmdReady (s : State) : (finish s).cmdReady = false := rfl
@[simp] theorem finish_inputs (s : State) : (finish s).inputs = s.inputs := rfl

@[simp] theorem takeResponse_R (s : State) : (takeResponse s).R = s.R := rfl
@[simp] theorem takeResponse_S (s : State) : (takeResponse s).S = s.S := rfl
@[simp] theorem takeResponse_ACC (s : State) : (takeResponse s).ACC = s.ACC := rfl
@[simp] theorem takeResponse_PHASE (s : State) : (takeResponse s).PHASE = s.PHASE := rfl
@[simp] theorem takeResponse_ERR (s : State) : (takeResponse s).ERR = s.ERR := rfl
@[simp] theorem takeResponse_rsp (s : State) : (takeResponse s).rsp = none := rfl
@[simp] theorem takeResponse_cmdReady (s : State) : (takeResponse s).cmdReady = true := rfl
@[simp] theorem takeResponse_inputs (s : State) : (takeResponse s).inputs = s.inputs := rfl

@[simp] theorem resetWith_R (rest : List PortIn) : (resetWith rest).R = 0 := rfl
@[simp] theorem resetWith_S (rest : List PortIn) : (resetWith rest).S = 0 := rfl
@[simp] theorem resetWith_ACC (rest : List PortIn) : (resetWith rest).ACC = 0 := rfl
@[simp] theorem resetWith_PHASE (rest : List PortIn) : (resetWith rest).PHASE = .idle := rfl
@[simp] theorem resetWith_ERR (rest : List PortIn) : (resetWith rest).ERR = .noFault := rfl
@[simp] theorem resetWith_rsp (rest : List PortIn) : (resetWith rest).rsp = none := rfl
@[simp] theorem resetWith_cmdReady (rest : List PortIn) : (resetWith rest).cmdReady = false := rfl
@[simp] theorem resetWith_inputs (rest : List PortIn) : (resetWith rest).inputs = rest := rfl

end Sys2Proof.Machine
end

