-- ==== Sys2Proof/Laws/Ops.lean ====
section
/-! SUPPORT. Everything the shared operations, `exec` and `step` can do, said once: provers cite these and do not
unfold the machine. -/

namespace Sys2Proof.Machine

open Sys2Proof.Safety

/-! ## Accepted commands -/

/-- The pseudocode of a command when no fault is raised (60_exceptions.md R88, "do X"). -/
def effectOf : Instr → State → State
  | .clr _ _ => clearEngine
  | .ldkey _ data => loadKey data
  | .absorb len data => absorbBlock len.toNat data
  | .final _ _ => finish

/-- Every command is one admission with its own effect, and always answers a next state. -/
theorem exec_eq_stepCommand (i : Instr) (s : State) : exec i s = .next (stepCommand i.op i.len (effectOf i) s) := by
  cases i <;> rfl

theorem exec_isNext (i : Instr) (s : State) : ∃ t, exec i s = .next t := ⟨_, exec_eq_stepCommand i s⟩

/-- What an accepted command can do: run, be answered in `ERROR`, or take the fault entry. -/
theorem exec_cases {i : Instr} {s t : State} (h : exec i s = .next t) :
    (admission i.op i.len s.PHASE = .execute ∧ t = effectOf i s) ∨
    (admission i.op i.len s.PHASE = .sticky ∧ t = respond s.ERR s) ∨
    (∃ f, admission i.op i.len s.PHASE = .raises f ∧ t = raise f s) := by
  rw [exec_eq_stepCommand] at h
  injection h with h
  subst h
  unfold stepCommand
  split <;> simp_all

theorem exec_of_execute {i : Instr} {s : State} (h : admission i.op i.len s.PHASE = .execute) :
    exec i s = .next (effectOf i s) := by
  simp [exec_eq_stepCommand, stepCommand, h]

theorem exec_of_sticky {i : Instr} {s : State} (h : admission i.op i.len s.PHASE = .sticky) :
    exec i s = .next (respond s.ERR s) := by
  simp [exec_eq_stepCommand, stepCommand, h]

theorem exec_of_raises {i : Instr} {s : State} {f : ErrCode} (h : admission i.op i.len s.PHASE = .raises f) :
    exec i s = .next (raise f s) := by
  simp [exec_eq_stepCommand, stepCommand, h]

/-! ## The verdict on a command, case by case -/

theorem admission_error_clr {len : Len} (h : len = 0) : admission .clr len .error = .execute := by
  subst h; decide

theorem admission_error_sticky {op : Op} {len : Len} (h : ¬(op = .clr ∧ len = 0)) :
    admission op len .error = .sticky := by
  have h' : ¬(op = .clr ∧ decodeFault op len = .noFault) := by
    rintro ⟨rfl, hf⟩
    refine h ⟨rfl, ?_⟩
    simp only [decodeFault] at hf
    split at hf
    · exact BitVec.eq_of_toNat_eq ‹_›
    · cases hf
  simp [admission, h']

theorem admission_decodeFault {op : Op} {len : Len} {phase : Phase} (hp : phase ≠ .error)
    (hf : decodeFault op len ≠ .noFault) : admission op len phase = .raises (decodeFault op len) := by
  simp [admission, hp, hf]

theorem admission_phaseFault {op : Op} {len : Len} {phase : Phase} (hp : phase ≠ .error)
    (hf : decodeFault op len = .noFault) (hs : phaseFault phase op ≠ .noFault) :
    admission op len phase = .raises (phaseFault phase op) := by
  simp [admission, hp, hf, hs]

theorem admission_execute {op : Op} {len : Len} {phase : Phase} (hp : phase ≠ .error)
    (hf : decodeFault op len = .noFault) (hs : phaseFault phase op = .noFault) :
    admission op len phase = .execute := by
  simp [admission, hp, hf, hs]

/-- A command runs outside `ERROR` with a legal `LEN` and an admitting phase, and in `ERROR` as a clean `CLR`. -/
theorem admission_eq_execute {op : Op} {len : Len} {phase : Phase} (h : admission op len phase = .execute) :
    decodeFault op len = .noFault ∧
      ((phase = .error ∧ op = .clr) ∨ (phase ≠ .error ∧ phaseFault phase op = .noFault)) := by
  unfold admission at h
  split at h
  · split at h
    · rename_i hp hc; exact ⟨hc.2, .inl ⟨hp, hc.1⟩⟩
    · cases h
  · split at h
    · cases h
    · split at h
      · cases h
      · rename_i hp hf hs; exact ⟨not_not.mp hf, .inr ⟨hp, not_not.mp hs⟩⟩

/-- A fault is raised outside `ERROR` only, and it is a fault. -/
theorem admission_eq_raises {op : Op} {len : Len} {phase : Phase} {f : ErrCode}
    (h : admission op len phase = .raises f) :
    phase ≠ .error ∧ f ≠ .noFault ∧
      (f = decodeFault op len ∨ (decodeFault op len = .noFault ∧ f = phaseFault phase op)) := by
  unfold admission at h
  split at h
  · split at h <;> cases h
  · split at h
    · rename_i hp hf; cases h; exact ⟨hp, hf, .inl rfl⟩
    · split at h
      · rename_i hp hf hs; cases h; exact ⟨hp, hs, .inr ⟨not_not.mp hf, rfl⟩⟩
      · cases h

theorem admission_eq_sticky {op : Op} {len : Len} {phase : Phase} (h : admission op len phase = .sticky) :
    phase = .error := by
  unfold admission at h
  split at h
  · assumption
  · split at h
    · cases h
    · split at h <;> cases h

/-! ## One step -/

theorem eventsAfterReset_isSome {l : List PortIn} : (eventsAfterReset l).isSome ↔ .resetLow ∈ l := by
  induction l with
  | nil => simp [eventsAfterReset]
  | cons p l ih => cases p <;> simp [eventsAfterReset, ih]

/-- The step that accepts a word runs the decoded command. -/
theorem step_of_accepts {s : State} {w : CmdWord} (h : Accepts s w) :
    step s = exec (decode w) { s with inputs := s.inputs.tail } := by
  obtain ⟨⟨r, hi⟩, hr, hc⟩ := h
  obtain ⟨rest, hs⟩ : ∃ rest, s.inputs = .edge true w r :: rest := by
    cases hl : s.inputs with
    | nil => simp [hl] at hi
    | cons p l => simp only [hl, List.head?_cons, Option.some.injEq] at hi; exact ⟨l, by rw [hi]⟩
  simp [step, portAction, edgeAction, hs, hr, hc]

theorem step_of_resets {s : State} (h : Resets s) : ∃ rest, step s = .next (resetWith rest) := by
  cases hl : s.inputs with
  | nil => simp [Resets, hl] at h
  | cons p l =>
    cases p with
    | resetLow => exact ⟨l, by simp [step, portAction, hl]⟩
    | powerUp =>
      have hm : .resetLow ∈ l := by simpa [Resets, hl] using h
      obtain ⟨rest, hrest⟩ := Option.isSome_iff_exists.mp (eventsAfterReset_isSome.mpr hm)
      exact ⟨rest, by simp [step, portAction, hl, hrest]⟩
    | edge v w r => simp [Resets, hl] at h

theorem step_of_neverReset {s : State} (h : NeverReset s) : step s = .refused .neverReset := by
  obtain ⟨h1, h2⟩ := h
  cases hl : s.inputs with
  | nil => simp [hl] at h1
  | cons p l =>
    simp only [hl, List.head?_cons, Option.some.injEq] at h1
    subst h1
    have hm : eventsAfterReset l = none := by
      rw [← Option.not_isSome_iff_eq_none, eventsAfterReset_isSome]; simpa [hl] using h2
    simp [step, portAction, hl, hm]

/-- What an edge that accepts nothing does: a pending response is taken or waits, an engine without one becomes or
stays ready. -/
theorem step_of_edge {s : State} (hr : ¬Resets s) (hn : ¬NeverReset s) (ha : ∀ w, ¬Accepts s w) :
    (∃ q, s.rsp = some q ∧ (step s = .next (takeResponse { s with inputs := s.inputs.tail }) ∨
      step s = .next { s with inputs := s.inputs.tail })) ∨
    (s.rsp = none ∧ step s = .next { s with inputs := s.inputs.tail, cmdReady := true }) := by
  have key : ∀ v w r, s.inputs = .edge v w r :: s.inputs.tail ∨ (s.inputs = [] ∧ v = false ∧ w = 0 ∧ r = false) →
      (portAction s = edgeAction v w r { s with inputs := s.inputs.tail } ∧
        (s.rsp = none → s.cmdReady = true → v = false)) := by
    intro v w r h
    rcases h with h | ⟨h, rfl, rfl, rfl⟩
    · refine ⟨by rw [portAction, h]; rfl, fun h1 h2 => ?_⟩
      cases v with
      | false => rfl
      | true => exact absurd ⟨⟨r, by rw [h]; rfl⟩, h1, h2⟩ (ha w)
    · refine ⟨?_, fun _ _ => rfl⟩
      have hs : s = { s with inputs := s.inputs.tail } := by cases s; simp_all
      rw [← hs, portAction, h]
  obtain ⟨v, w, r, h⟩ : ∃ v w r, s.inputs = .edge v w r :: s.inputs.tail ∨
      (s.inputs = [] ∧ v = false ∧ w = 0 ∧ r = false) := by
    cases hl : s.inputs with
    | nil => exact ⟨false, 0, false, .inr ⟨rfl, rfl, rfl, rfl⟩⟩
    | cons p l =>
      cases p with
      | powerUp =>
        exfalso
        by_cases hm : .resetLow ∈ s.inputs
        · exact hr (.inr ⟨by rw [hl]; rfl, hm⟩)
        · exact hn ⟨by rw [hl]; rfl, hm⟩
      | resetLow => exact absurd (.inl (by rw [hl]; rfl)) hr
      | edge v w r => exact ⟨v, w, r, .inl rfl⟩
  obtain ⟨hp, hv⟩ := key v w r h
  cases hrsp : s.rsp with
  | some q =>
    refine .inl ⟨q, rfl, ?_⟩
    cases r <;> simp [step, hp, edgeAction, hrsp]
  | none =>
    refine .inr ⟨rfl, ?_⟩
    cases hc : s.cmdReady with
    | false => simp [step, hp, edgeAction, hrsp, hc]
    | true => simp [step, hp, edgeAction, hrsp, hc, hv hrsp hc]

/-- Everything a step can do. -/
theorem step_cases {s t : State} (h : step s = .next t) :
    (Resets s ∧ ∃ rest, t = resetWith rest) ∨
    (∃ w, Accepts s w ∧ exec (decode w) { s with inputs := s.inputs.tail } = .next t) ∨
    ((∀ w, ¬Accepts s w) ∧ ¬Resets s ∧
      ((s.rsp ≠ none ∧ (t = takeResponse { s with inputs := s.inputs.tail } ∨
        t = { s with inputs := s.inputs.tail })) ∨
       (s.rsp = none ∧ t = { s with inputs := s.inputs.tail, cmdReady := true }))) := by
  by_cases hr : Resets s
  · obtain ⟨rest, hs⟩ := step_of_resets hr
    rw [hs] at h; injection h with h
    exact .inl ⟨hr, rest, h.symm⟩
  by_cases hn : NeverReset s
  · rw [step_of_neverReset hn] at h; cases h
  by_cases ha : ∃ w, Accepts s w
  · obtain ⟨w, ha⟩ := ha
    exact .inr (.inl ⟨w, ha, by rw [← step_of_accepts ha, h]⟩)
  · have ha' : ∀ w, ¬Accepts s w := fun w hw => ha ⟨w, hw⟩
    refine .inr (.inr ⟨ha', hr, ?_⟩)
    rcases step_of_edge hr hn ha' with ⟨q, hq, hs | hs⟩ | ⟨hq, hs⟩ <;> rw [hs] at h <;> injection h with h <;> subst h
    · exact .inl ⟨by simp [hq], .inl rfl⟩
    · exact .inl ⟨by simp [hq], .inr rfl⟩
    · exact .inr ⟨hq, rfl⟩

/-- The step of an offered word is the decoded command on the ready engine. -/
theorem step_offer (w : CmdWord) (s : State) :
    step (offer w s) = exec (decode w) { s with rsp := none, cmdReady := true } := by
  simp [step, portAction, edgeAction, offer]

/-! ## Runs -/

theorem run_zero (s : State) : Host.Core.run core 0 s = .next s := rfl

theorem run_succ (n : Nat) {s t : State} (h : step s = .next t) :
    Host.Core.run core (n + 1) s = Host.Core.run core n t := by
  have hs : core.step s = .next t := h
  simp only [Host.Core.run, hs]

/-- A run of one step more is a run and a step. -/
theorem run_succ_last {n : Nat} {s t : State} (h : Host.Core.run core (n + 1) s = .next t) :
    ∃ u, Host.Core.run core n s = .next u ∧ step u = .next t := by
  induction n generalizing s with
  | zero =>
    refine ⟨s, rfl, ?_⟩
    cases hs : step s with
    | next v => rw [run_succ 0 hs] at h; exact h
    | fault r => have : core.step s = .fault r := hs; simp [Host.Core.run, this] at h
    | refused r => have : core.step s = .refused r := hs; simp [Host.Core.run, this] at h
  | succ n ih =>
    cases hs : step s with
    | next v =>
      rw [run_succ _ hs] at h
      obtain ⟨u, hu, ht⟩ := ih h
      exact ⟨u, by rw [run_succ _ hs]; exact hu, ht⟩
    | fault r => have : core.step s = .fault r := hs; simp [Host.Core.run, this] at h
    | refused r => have : core.step s = .refused r := hs; simp [Host.Core.run, this] at h

end Sys2Proof.Machine
end

