-- ==== Sys2Proof/Laws/ComputeTag.lean ====
section
/-! SUPPORT. What a host that sends commands one by one sees: one lemma for `transact` and `serve`, and the shape of
the chunks of a message. -/

namespace Sys2Proof.Machine

/-- A transaction runs the decoded command on a ready engine and takes its response. -/
theorem transact_of_exec {w : CmdWord} {s t : State} {q : RspWord}
    (h : exec (decode w) { s with rsp := none, cmdReady := true } = .next t) (hq : t.rsp = some q) :
    transact w s = some (q, { t with rsp := none, cmdReady := true }) := by
  have h2 : step { t with inputs := .edge false 0 true :: t.inputs } =
      .next { t with rsp := none, cmdReady := true } := by
    simp [step, portAction, edgeAction, hq, takeResponse]
  rw [transact, step_offer, h]
  simp only []
  rw [h2]
  simp only [hq]

theorem serve_nil (s : State) : serve [] s = some ([], s) := rfl

/-- The first word's transaction, then the others'. -/
theorem serve_cons {w : CmdWord} {ws : List CmdWord} {s t : State} {q : RspWord} {r : List RspWord × State}
    (h : transact w s = some (q, t)) (hr : serve ws t = some r) : serve (w :: ws) s = some (q :: r.1, r.2) := by
  simp [serve, h, hr]

theorem lenOf_toNat (n : Nat) : (lenOf n).toNat = min n 63 := by
  rw [lenOf, BitVec.toNat_ofNat]; omega

/-- A count that fits is the field itself. -/
theorem lenOf_of_le {n : Nat} (h : n ≤ 63) : lenOf n = BitVec.ofNat 6 n := by rw [lenOf, Nat.min_eq_left h]

/-- The field says 32 for a count of 32 and for no other. -/
theorem lenOf_eq_32_iff {n : Nat} : lenOf n = 32 ↔ n = 32 := by
  rw [← BitVec.toNat_inj, lenOf_toNat, show (32 : Len).toNat = 32 from rfl]; omega

theorem computeTag_of_length {msg key : List Byte} (h : key.length = 32) :
    computeTag msg key =
      some (leEnc 16 (tagval ((chunks msg).foldl (foldChunk (keyR key)) 0) (keyS key))) := by
  rw [computeTag, if_pos h]

theorem chunks_length (msg : List Byte) : (chunks msg).length = (msg.length + 15) / 16 := by
  simp [chunks, chunkCount]

theorem chunks_getD {msg : List Byte} {i : Nat} (h : i < (msg.length + 15) / 16) :
    (chunks msg).getD i [] = (msg.drop (16 * i)).take 16 := by simp [chunks, chunkCount, h]

end Sys2Proof.Machine
end

