-- ==== Sys2Proof/Laws/PerInstr.lean ====
section
/-! SUPPORT. The family `LegalLen`: a command is well formed exactly when the decode check finds no fault
(30_encoding.md R39), one lemma a constructor; and what follows for the verdict on a command. -/

namespace Sys2Proof.Laws.LegalLen

/-- The command is well formed exactly when `DECODE_FAULT` answers `NONE`. -/
def Statement (i : Instr) : Prop := i.wellFormed = true ↔ decodeFault i.op i.len = .noFault

theorem clr (len : Len) (data : Data) : Statement (.clr len data) := by
  show (len.toNat == 0) = true ↔ (if len.toNat = 0 then ErrCode.noFault else .illegal) = .noFault
  by_cases h : len.toNat = 0 <;> simp [h]

theorem ldkey (len : Len) (data : Data) : Statement (.ldkey len data) := by
  show (len.toNat == 32) = true ↔ (if len.toNat = 32 then ErrCode.noFault else .keylen) = .noFault
  by_cases h : len.toNat = 32 <;> simp [h]

theorem absorb (len : Len) (data : Data) : Statement (.absorb len data) := by
  show (decide (1 ≤ len.toNat) && decide (len.toNat ≤ 16)) = true ↔
    (if 1 ≤ len.toNat ∧ len.toNat ≤ 16 then ErrCode.noFault else .blklen) = .noFault
  by_cases h : 1 ≤ len.toNat ∧ len.toNat ≤ 16 <;> simp [h]

theorem final (len : Len) (data : Data) : Statement (.final len data) := by
  show (len.toNat == 0) = true ↔ (if len.toNat = 0 then ErrCode.noFault else .illegal) = .noFault
  by_cases h : len.toNat = 0 <;> simp [h]

theorem all (i : Instr) : Statement i := by
  cases i with
  | clr len data => exact clr len data
  | ldkey len data => exact ldkey len data
  | absorb len data => exact absorb len data
  | final len data => exact final len data

end Sys2Proof.Laws.LegalLen

namespace Sys2Proof.Machine

open Sys2Proof.Safety

/-- An ill-formed command has its opcode's decode fault (30_encoding.md R39, last column). -/
theorem decodeFault_of_not_wellFormed {i : Instr} (h : i.wellFormed = false) :
    decodeFault i.op i.len = lenFault i.op := by
  have hn : ¬decodeFault i.op i.len = .noFault := fun hf => by simp [(Laws.LegalLen.all i).mpr hf] at h
  cases hop : i.op <;> rw [hop] at hn <;> simp only [decodeFault, lenFault] at hn ⊢ <;>
    exact if_neg fun hc => hn (if_pos hc)

/-- Outside `ERROR` a phase admits an opcode exactly when there is no phase fault (60_exceptions.md R83). -/
theorem admits_iff {phase : Phase} {op : Op} (h : phase ≠ .error) :
    Admits phase op ↔ phaseFault phase op = .noFault := by
  cases phase <;> cases op <;> simp_all [Admits, phaseFault]

theorem phaseFault_eq_seq {phase : Phase} {op : Op} (h : phaseFault phase op ≠ .noFault) :
    phaseFault phase op = .seq := by
  cases phase <;> cases op <;> simp_all [phaseFault]

/-- A well-formed command in an admitting phase runs. -/
theorem admission_of_admits {i : Instr} {phase : Phase} (hw : i.wellFormed = true) (ha : Admits phase i.op) :
    admission i.op i.len phase = .execute := by
  have hf := (Laws.LegalLen.all i).mp hw
  by_cases hp : phase = .error
  · subst hp
    simp only [Admits] at ha
    simp [admission, ha, ha ▸ hf]
  · exact admission_execute hp hf ((admits_iff hp).mp ha)

end Sys2Proof.Machine
end

