-- ==== Sys2Proof/Tests/Slice0.lean ====
section
/-! SUPPORT. Tests. Expected values are those of spec/95_test_vectors.md (the section is named at each test) or
of the rule named there; every test is about one step or one operation on a small state. -/

namespace Sys2Proof.Tests

set_option exponentiation.threshold 300

open Sys2Proof.Machine

/-! ## Helpers -/

/-- The state of an outcome that is a next state. -/
def nextOf : Host.Outcome State Fault Refusal → Option State
  | .next s => some s
  | .fault _ => none
  | .refused _ => none

/-- A ready engine with these registers. -/
def engine (r s acc : Nat) (phase : Phase) (err : ErrCode) : State :=
  { State.reset with
    R := BitVec.ofNat 128 r, S := BitVec.ofNat 128 s, ACC := BitVec.ofNat 130 acc
    PHASE := phase, ERR := err, cmdReady := true }

/-- The engine after a command with this response word: registers as given, the response pending. -/
def answered (r s acc : Nat) (phase : Phase) (err : ErrCode) (q : RspWord) : State :=
  { engine r s acc phase err with rsp := some q, cmdReady := false }

/-- A word by its 33-byte form, header first, further lanes `00` (30_encoding.md R37). -/
def word (bytes : List Nat) : CmdWord := BitVec.ofNat 264 (leDec (bytes.map (BitVec.ofNat 8)))

/-- What `exec` makes of a word. -/
def run (bytes : List Nat) (s : State) : Option State := nextOf (exec (decode (word bytes)) s)

/-- The states of 95_test_vectors.md §4.10. -/
def idle : State := engine 0 0 0 .idle .noFault
def keyedK2 : State := engine 2 3 0 .keyed .noFault
def lastK2 : State := engine 2 3 0x202 .last .noFault
def errorSeq : State := engine 0 0 0 .error .seq

/-- The lanes of key `K2` and of key `KV` (95_test_vectors.md, named keys). -/
def laneK2 : List Nat := [2, 0, 0, 0, 0, 0, 0, 0, 0, 0, 0, 0, 0, 0, 0, 0, 3]
def laneKV : List Nat :=
  [0x85, 0xd6, 0xbe, 0x78, 0x57, 0x55, 0x6d, 0x33, 0x7f, 0x44, 0x52, 0xfe, 0x42, 0xd5, 0x06, 0xa8] ++
  [0x01, 0x03, 0x80, 0x8a, 0xfb, 0x0d, 0xb2, 0xfd, 0x4a, 0xbf, 0xf6, 0xaf, 0x41, 0x49, 0xf5, 0x1b]

/-! ## WellFormed: one ill-formed term for each check -/

theorem test_wf_refuses_clr_len_1 : (Instr.clr 1 0).wellFormed = false := by decide
theorem test_wf_refuses_ldkey_len_31 : (Instr.ldkey 31 0).wellFormed = false := by decide
theorem test_wf_refuses_ldkey_len_33 : (Instr.ldkey 33 0).wellFormed = false := by decide
theorem test_wf_refuses_absorb_len_0 : (Instr.absorb 0 0).wellFormed = false := by decide
theorem test_wf_refuses_absorb_len_17 : (Instr.absorb 17 0).wellFormed = false := by decide
theorem test_wf_refuses_final_len_63 : (Instr.final 63 0).wellFormed = false := by decide
theorem test_wf_accepts_each :
    (Instr.clr 0 5).wellFormed && (Instr.ldkey 32 5).wellFormed && (Instr.absorb 1 5).wellFormed &&
      (Instr.absorb 16 5).wellFormed && (Instr.final 0 5).wellFormed = true := by decide

/-! ## Decoding: words written out bit by bit from 30_encoding.md R36, R38 -/

/-- `OP = 00`, `LEN = 000000`. -/
theorem test_decode_clr : decode 0b00000000#264 = .clr 0 0 := by decide
/-- `OP = 01`, `LEN = 100000`, lane 0 = `85`, lane 1 = `d6`. -/
theorem test_decode_ldkey : decode 0b11010110_10000101_01_100000#264 = .ldkey 32 0xd685 := by decide
/-- 95_test_vectors.md §4.9: the bytes `82 75 70` are `W = 0x707582`: `OP = 10`, `LEN = 000010`. -/
theorem test_decode_absorb : decode 0b01110000_01110101_10_000010#264 = .absorb 2 0x7075 := by decide
/-- `OP = 11`, `LEN = 000000`. -/
theorem test_decode_final : decode 0b11_000000#264 = .final 0 0 := by decide
/-- The last lane is bits 263 to 256 (30_encoding.md R36). -/
theorem test_decode_lane_31 :
    decode (0xab#264 <<< 256) = .clr 0 (0xab#256 <<< 248) := by decide
/-- 95_test_vectors.md §4.9, the byte form, with one byte left over. -/
theorem test_decodeBytes_absorb :
    (match decodeBytes (leEnc 33 0x707582 ++ [0xee]) with
      | .ok (i, rest) => i == .absorb 2 0x7075 && rest == [0xee]
      | .error _ => false) = true := by decide
theorem test_decodeBytes_truncated :
    (match decodeBytes (leEnc 32 0x707582) with
      | .ok _ => false
      | .error e => e == .truncated) = true := by decide
theorem test_encode_absorb : encode (.absorb 2 0x7075) = 0x707582#264 := by decide
/-- 95_test_vectors.md §4.9: the boundary rows of the header table. -/
theorem test_decodeFault_rows :
    [0x00, 0x01, 0x3f, 0x40, 0x5f, 0x60, 0x61, 0x7f, 0x80, 0x81, 0x90, 0x91, 0xbf, 0xc0, 0xc1, 0xff].map
        (fun h => wordFault (word [h])) =
      [.noFault, .illegal, .illegal, .keylen, .keylen, .noFault, .keylen, .keylen, .blklen, .noFault,
        .noFault, .blklen, .blklen, .noFault, .illegal, .illegal] := by decide
theorem test_decodeTableWord : decodeTableWord 264 0x40 = some (.ldkey 0 0) := by decide

/-! ## Codec and arithmetic -/

/-- 95_test_vectors.md §4.1. -/
theorem test_leDec : leDec [0x85, 0xd6, 0xbe, 0x78] = 0x78bed685 := by decide
/-- 95_test_vectors.md §4.1: bit 32 is dropped. -/
theorem test_leEnc : leEnc 4 0x178bed685 = [0x85, 0xd6, 0xbe, 0x78] := by decide
/-- 95_test_vectors.md §4.2, row 4. -/
theorem test_clamp :
    clamp 0xfffefdfcfbfaf9f8f7f6f5f4f3f2f1f0 = 0x0ffefdfc0bfaf9f807f6f5f403f2f1f0 := by decide
/-- 95_test_vectors.md §4.4: lanes 3 to 31 `aa` are ignored. -/
theorem test_blkEnc : blkEnc (busOfBytes ([1, 2, 3] ++ List.replicate 29 0xaa)) 3 = 0x1030201 := by decide
/-- 95_test_vectors.md §4.5, the largest product. -/
theorem test_macstep :
    macstep (P - 1) (2 ^ 129 - 1) 0x0ffffffc0ffffffc0ffffffc0fffffff =
      0x207fffffe07fffffe07fffffe07fffffd := by decide
/-- 95_test_vectors.md §4.5: `REDUCE(2^255 - 1)` and `REDUCE(P)`. -/
theorem test_reduce :
    reduce (2 ^ 255 - 1) = 0x9fffffffffffffffffffffffffffffff ∧ reduce P = 0 := by decide
/-- 95_test_vectors.md §4.7, the largest sum. -/
theorem test_tagval : tagval (P - 1) (2 ^ 128 - 1) = 0xfffffffffffffffffffffffffffffff9 := by decide

/-! ## One step of each command -/

/-- 95_test_vectors.md §4.3, `LDKEY KV`. -/
theorem test_ldkey :
    run (0x60 :: laneKV) idle =
      some (answered 0x0806d5400e52447c036d555408bed685 0x1bf54941aff6bf4afdb20dfb8a800301 0
        .keyed .noFault 0) := by decide
/-- 95_test_vectors.md §4.3, header `5f`; the decode fault wins over `SEQ` (P9). -/
theorem test_ldkey_keylen : run (0x5f :: laneK2) keyedK2 = some (answered 0 0 0 .error .keylen 1) := by decide
/-- 95_test_vectors.md §4.6, row 8: `ABSORB 75 70`. -/
theorem test_absorb :
    run [0x82, 0x75, 0x70]
        (engine 0x0806d5400e52447c036d555408bed685 0x1bf54941aff6bf4afdb20dfb8a800301
          0x2d8adaf23b0337fa7cccfb4ea344b30de .keyed .noFault) =
      some (answered 0x0806d5400e52447c036d555408bed685 0x1bf54941aff6bf4afdb20dfb8a800301
        0x28d31b7caff946c77c8844335369d03a7 .last .noFault 0) := by decide
/-- 95_test_vectors.md §4.6, row 9: a block after the short block. -/
theorem test_absorb_in_last : run [0x81, 2] lastK2 = some (answered 0 0 0 .error .seq 3) := by decide
/-- 95_test_vectors.md §4.7: `FINAL` in `LAST`, response `08 05 02 00 ...`. -/
theorem test_final : run [0xc0] lastK2 = some (answered 0 0 0 .idle .noFault 0x020508) := by decide
/-- 95_test_vectors.md §4.7: header `c5`. -/
theorem test_final_illegal : run [0xc5] keyedK2 = some (answered 0 0 0 .error .illegal 4) := by decide
/-- 95_test_vectors.md §4.8, row 3. -/
theorem test_clr : run [0x00] lastK2 = some (answered 0 0 0 .idle .noFault 0) := by decide
/-- 95_test_vectors.md §4.10: `CLR` with `LEN = 1` in `ERROR` changes nothing and is answered `03`. -/
theorem test_clr_len_1_in_error : run [0x01] errorSeq = some (answered 0 0 0 .error .seq 3) := by decide

/-! ## Ports, status, response -/

/-- 95_test_vectors.md §4.8: `ERROR` with `KEYLEN` shows `0b00111`. -/
theorem test_status : (engine 0 0 0 .error .keylen).status = 0b00111#5 := by decide
/-- 95_test_vectors.md §4.9, the response form `08 a8 06 ...`. -/
theorem test_rspBytes :
    rspBytes (rspWord .noFault true 0xa927010caf8b2bc2c6365130c11d06a8) =
      [0x08, 0xa8, 0x06, 0x1d, 0xc1, 0x30, 0x51, 0x36, 0xc6, 0xc2, 0x2b, 0x8b, 0xaf, 0x0c, 0x01, 0x27, 0xa9] := by
  decide
/-- 95_test_vectors.md §4.11, row 3: reset destroys a tag not yet taken (70_reset_and_hazards.md R106). -/
theorem test_reset_kills_response :
    nextOf (step { answered 0 0 0 .idle .noFault 0x020508 with inputs := [.resetLow] }) = some State.reset := by
  decide
/-- 70_reset_and_hazards.md R103 item 4: a response waits for `rsp_ready`. -/
theorem test_response_waits :
    nextOf (step { answered 0 0 0 .idle .noFault 4 with inputs := [.edge true 0x60 false] }) =
      some (answered 0 0 0 .idle .noFault 4) := by decide
/-- 70_reset_and_hazards.md R107. -/
theorem test_never_reset_refused :
    nextOf (step { State.reset with inputs := [.powerUp, .edge true 0 true] }) = none := by decide
theorem test_withFetchWord_runs_from_reset :
    nextOf (step (State.reset.withFetchWord 264 0x40)) = some (answered 0 0 0 .error .keylen 1) := by decide

/-! ## The whole message and the assembler -/

/-- 95_test_vectors.md §6 P4, commands 6 to 8: key `K2`, message `01`. -/
theorem test_computeTag :
    computeTag [1] (lanes (busOfBytes (laneK2.map (BitVec.ofNat 8))) 32) =
      some [5, 2, 0, 0, 0, 0, 0, 0, 0, 0, 0, 0, 0, 0, 0, 0] := by decide
/-- 60_exceptions.md R81: a key of 96 bytes is not cut to its first 32. -/
theorem test_ldkey_of_96_bytes : (ldkeyOf (List.replicate 96 1)).wellFormed = false := by decide
/-- 30_encoding.md R45 and 95_test_vectors.md §4.9. -/
theorem test_assembleText :
    assembleText "ABSORB 75 70 ; up\n\nFINAL".toList = some [0x707582#264, 0xc0#264] := by decide
/-- 95_test_vectors.md §6 P4: `.word 0, 1` is the header `01`. -/
theorem test_assembleText_word : assembleText ".word 0, 1".toList = some [0x01#264] := by decide

/-! ## Witnesses: for each statement of Obligations.lean that has hypotheses, a state and operands that meet them all

Each theorem names its statement; its clauses are the hypotheses of that statement's clauses, in order, at the
boundary values of their ranges. -/

open Sys2Proof.Safety

/-- A pending `OK` response, the engine in this phase. -/
def pending (phase : Phase) : State := answered 0 0 0 phase .noFault 0

/-- To show which next state an outcome is, compare states. -/
theorem eq_next_of_nextOf {o : Host.Outcome State Fault Refusal} {t : State} (h : nextOf o = some t) :
    o = .next t := by
  cases o with
  | next s => simp only [nextOf, Option.some.injEq] at h; rw [h]
  | fault r => cases h
  | refused r => cases h

/-- The key `K2` and a key with the same number of bytes that differs in a clamped bit or in its second half. -/
def keyK2 : List Byte := 2 :: List.replicate 15 0 ++ 3 :: List.replicate 15 0
def keyK2Clamped : List Byte := [2, 0, 0, 0x10] ++ List.replicate 12 0 ++ 3 :: List.replicate 15 0
def keyK2Other : List Byte := 2 :: List.replicate 15 0 ++ 4 :: List.replicate 15 0

theorem inv_idle : Inv idle :=
  ⟨by decide, by decide, fun _ => by decide, by decide, (fun _ h => nomatch h), (fun h => nomatch h)⟩
theorem inv_keyedK2 : Inv keyedK2 :=
  ⟨by decide, by decide, fun h => absurd h (by decide), by decide, (fun _ h => nomatch h), (fun h => nomatch h)⟩
theorem inv_lastK2 : Inv lastK2 :=
  ⟨by decide, by decide, fun h => absurd h (by decide), by decide, (fun _ h => nomatch h), (fun h => nomatch h)⟩
theorem inv_errorSeq : Inv errorSeq :=
  ⟨by decide, by decide, fun _ => by decide, by decide, (fun _ h => nomatch h), (fun h => nomatch h)⟩

theorem witness_EveryByteFormIsOneCommand :
    33 ≤ (List.replicate 33 (0 : Byte)).length ∧ (List.replicate 32 (0 : Byte)).length < 33 := by decide
theorem witness_HeaderByteDecidesDecodeFault :
    0x90 = (word [0x90]).toNat % 256 ∧ 0x91 = (word [0x91]).toNat % 256 := by decide
theorem witness_ClrZeroisesAndLeavesError :
    ((1 : Len) ≠ 0 ∧ idle.PHASE ≠ .error) ∧ ((63 : Len) ≠ 0 ∧ errorSeq.PHASE = .error) := by decide
theorem witness_LdkeyLoadsClampedKey :
    idle.PHASE = .idle ∧ ((31 : Len) ≠ 32 ∧ (33 : Len) ≠ 32 ∧ keyedK2.PHASE ≠ .error) ∧
      (keyedK2.PHASE = .keyed ∧ lastK2.PHASE = .last) ∧ errorSeq.PHASE = .error := by decide
theorem witness_AbsorbFoldsMarkedChunk :
    (∀ len ∈ [(1 : Len), 15, 16], 1 ≤ len.toNat ∧ len.toNat ≤ 16 ∧ keyedK2.PHASE = .keyed) ∧
      (∀ len ∈ [(0 : Len), 17, 63], (len.toNat = 0 ∨ 16 < len.toNat) ∧ lastK2.PHASE ≠ .error) ∧
      (idle.PHASE = .idle ∧ lastK2.PHASE = .last) ∧ errorSeq.PHASE = .error := by decide
theorem witness_FinalAnswersTagAndZeroises :
    (keyedK2.PHASE = .keyed ∧ lastK2.PHASE = .last) ∧ ((1 : Len) ≠ 0 ∧ keyedK2.PHASE ≠ .error) ∧
      idle.PHASE = .idle ∧ errorSeq.PHASE = .error := by decide
theorem witness_DecodeFaultBeforePhaseFault :
    (idle.PHASE ≠ .error ∧ (Instr.absorb 0 0).wellFormed = false) ∧
      (idle.PHASE ≠ .error ∧ (Instr.absorb 1 0).wellFormed = true ∧ ¬Admits idle.PHASE (Instr.absorb 1 0).op) ∧
      (exec (.absorb 0 0) errorSeq = .next (answered 0 0 0 .error .seq 3) ∧ errorSeq.PHASE = .error ∧
        (answered 0 0 0 .error .seq 3).PHASE = .error) :=
  ⟨by decide, ⟨by decide, by decide, fun h => by rcases h with h | h <;> cases h⟩, eq_next_of_nextOf (by decide), by decide⟩
theorem witness_NothingElseFaults :
    ((Instr.ldkey 32 0).wellFormed = true ∧ Admits idle.PHASE .ldkey) ∧
      ((Instr.absorb 16 0).wellFormed = true ∧ Admits keyedK2.PHASE .absorb) ∧
      ((Instr.final 0 0).wellFormed = true ∧ Admits lastK2.PHASE .final) ∧
      ((Instr.clr 0 0).wellFormed = true ∧ Admits errorSeq.PHASE .clr) :=
  ⟨⟨by decide, .inr rfl⟩, ⟨by decide, .inr (.inl rfl)⟩, ⟨by decide, .inr rfl⟩, ⟨by decide, rfl⟩⟩
theorem witness_ErrorIsStickyUntilClrOrReset :
    (errorSeq.PHASE = .error ∧ ¬((Instr.clr 1 0).op = .clr ∧ (Instr.clr 1 0).len = 0)) ∧
      (errorSeq.PHASE = .error ∧ step errorSeq = .next errorSeq) :=
  ⟨by decide, by decide, eq_next_of_nextOf (by decide)⟩
theorem witness_TransitionTable : Inv idle ∧ Inv keyedK2 ∧ Inv lastK2 ∧ Inv errorSeq :=
  ⟨inv_idle, inv_keyedK2, inv_lastK2, inv_errorSeq⟩
theorem witness_CommandFrames :
    (exec (.absorb 16 0) (engine 0 3 0 .keyed .noFault) = .next (answered 0 3 0 .keyed .noFault 0) ∧
        (answered 0 3 0 .keyed .noFault 0).PHASE ≠ .error) ∧
      (exec (.ldkey 32 0) idle = .next (answered 0 0 0 .keyed .noFault 0) ∧
        (answered 0 0 0 .keyed .noFault 0).PHASE ≠ .error) ∧
      (exec (.final 0 0) lastK2 = .next (answered 0 0 0 .idle .noFault 0x020508) ∧
        (answered 0 0 0 .idle .noFault 0x020508).PHASE ≠ .error) ∧
      (exec (.final 0 0) errorSeq = .next (answered 0 0 0 .error .seq 3) ∧ errorSeq.PHASE = .error) :=
  ⟨⟨eq_next_of_nextOf (by decide), by decide⟩, ⟨eq_next_of_nextOf (by decide), by decide⟩,
    ⟨eq_next_of_nextOf (by decide), by decide⟩, ⟨eq_next_of_nextOf (by decide), by decide⟩⟩
theorem witness_StepRunsAcceptedWord :
    ({ keyedK2 with inputs := [.edge true 0xc0 true] } : State).inputs = .edge true 0xc0 true :: [] ∧
      keyedK2.rsp = none ∧ keyedK2.cmdReady = true := by decide
theorem witness_ResponseHandshake :
    ({ pending .idle with inputs := [.edge true 0 true] } : State).inputs = .edge true 0 true :: [] ∧
      (pending .idle).rsp = some 0 ∧ (idle.rsp = none ∧ idle.cmdReady = true) ∧
      (State.reset.rsp = none ∧ State.reset.cmdReady = false) := by decide
theorem witness_UntakenResponseBlocksEngine : (pending .keyed).rsp = some 0 := by decide
theorem witness_IdleEdgesChangeNothing : keyedK2.rsp = none ∧ keyedK2.cmdReady = true := by decide
theorem witness_OneResponsePerCommand :
    Over keyedK2 ∧ transact 0xc0 lastK2 = some (0x020508, idle) ∧ (0x020508 : RspWord).getLsbD 3 = true :=
  ⟨rfl, by decide, by decide⟩
theorem witness_ComputationBeginsAndEnds :
    (step (offer 0x60 idle) = .next (answered 0 0 0 .keyed .noFault 0) ∧ idle.PHASE = .idle ∧
        (answered 0 0 0 .keyed .noFault 0).PHASE = .keyed) ∧
      (step (offer 0xc0 lastK2) = .next (answered 0 0 0 .idle .noFault 0x020508) ∧ lastK2.PHASE = .last ∧
        (answered 0 0 0 .idle .noFault 0x020508).PHASE = .idle) :=
  ⟨⟨eq_next_of_nextOf (by decide), by decide⟩, eq_next_of_nextOf (by decide), by decide⟩
theorem witness_ResetFromAnyState :
    ({ pending .last with inputs := [.resetLow, .powerUp] } : State).inputs = .resetLow :: [.powerUp] := by decide
theorem witness_StepStopsOnlyWithoutReset :
    NeverReset { State.reset with inputs := [.powerUp, .edge true 0 true] } ∧
      ¬NeverReset { State.reset with inputs := [.powerUp, .edge true 0 true, .resetLow] } ∧
      ¬NeverReset State.reset := by unfold NeverReset; decide
theorem witness_StepKeepsInv : Inv errorSeq ∧ step errorSeq = .next errorSeq := ⟨inv_errorSeq, eq_next_of_nextOf (by decide)⟩
theorem witness_LastMeansShortAbsorbSinceLdkey :
    let s₀ : State := { engine 0 3 0 .keyed .noFault with inputs := [.edge true 0x81 false] }
    s₀.PHASE ≠ .last ∧ Host.Core.run Sys2Proof.core 1 s₀ = .next (answered 0 3 0 .last .noFault 0) ∧
      (answered 0 3 0 .last .noFault 0).PHASE = .last :=
  ⟨by decide, eq_next_of_nextOf (by decide), by decide⟩
theorem witness_RegistersChangeOnlyByCommandOrReset :
    step keyedK2 = .next keyedK2 ∧ (∀ w, ¬Accepts keyedK2 w) ∧ ¬Resets keyedK2 :=
  ⟨eq_next_of_nextOf (by decide), (fun _ h => nomatch h.1.choose_spec),
    fun h => h.elim (fun h => nomatch h) (fun h => nomatch h.1)⟩
theorem witness_TagOnlyFromExecutedFinal :
    step (offer 0xc0 lastK2) = .next (answered 0 0 0 .idle .noFault 0x020508) ∧
      (answered 0 0 0 .idle .noFault 0x020508).rsp = some 0x020508 ∧ (0x020508 : RspWord).getLsbD 3 = true :=
  ⟨eq_next_of_nextOf (by decide), by decide⟩
theorem witness_SecretsDoNotShow :
    SamePublic keyedK2 (engine 7 9 11 .keyed .noFault) ∧
      (word [0x82, 1, 2]).extractLsb' 0 8 = (word [0x82, 3, 4]).extractLsb' 0 8 :=
  ⟨⟨rfl, rfl, rfl, rfl⟩, by decide⟩
theorem witness_UnusedLanesAreIgnored :
    (∀ i, i < (2 : Len).toNat → lane (0xaa7075 : Data) i = lane (0x7075 : Data) i) ∧
      (Instr.ofFields .ldkey 31 0).wellFormed = false ∧ ¬Admits idle.PHASE .final :=
  ⟨by decide, by decide, fun h => by rcases h with h | h <;> cases h⟩
theorem witness_LittleEndianCodec : 15 < 16 ∧ 0 < 16 := by decide
theorem witness_ClampBytewise :
    ((List.replicate 16 (0xff : Byte)).length = 16 ∧ 15 < 16) ∧ (List.replicate 16 (0xff : Byte)).length = 16 ∧ 4 < 16 := by
  decide
theorem witness_ClampProperties :
    127 < 128 ∧ (0x10000000 : BitVec 128) &&& clampMask = 0 &&& clampMask := by decide
theorem witness_BlockIntegerTellsChunksApart :
    (1 ≤ [(0 : Byte)].length ∧ [(0 : Byte)].length ≤ 16) ∧
      (1 ≤ (List.replicate 16 (0 : Byte)).length ∧ (List.replicate 16 (0 : Byte)).length ≤ 16) ∧
      blockInt [7] = blockInt [7] ∧ (List.replicate 15 (0 : Byte)).length < 16 := by decide
theorem witness_ReduceIsModP : 2 ^ 255 - 1 < 2 ^ 255 ∧ P < 2 ^ 255 := by decide
theorem witness_AbsorbIntermediatesAreBounded : Inv keyedK2 ∧ (1 ≤ 1 ∧ 1 ≤ 16) ∧ (1 ≤ 16 ∧ 16 ≤ 16) :=
  ⟨inv_keyedK2, by decide⟩
theorem witness_ChunksCutTheMessage :
    1 < (chunks (List.replicate 17 0)).length ∧ [(0 : Byte)] ∈ chunks (List.replicate 17 0) := by decide
theorem witness_MacComputesTag : keyK2.length = 32 ∧ idle.PHASE = .idle := by decide
theorem witness_TagIsPolynomialInR : keyK2.length = 32 := by decide
theorem witness_TagLengthAndEmptyMessage : keyK2.length = 32 ∧ keyK2.tail.length ≠ 32 := by decide
theorem witness_ClampedKeyBitsDoNotMatter :
    keyK2.length = 32 ∧ keyK2Clamped.length = 32 ∧ keyK2.drop 16 = keyK2Clamped.drop 16 ∧
      leDec (keyK2.take 16) &&& 0x0ffffffc0ffffffc0ffffffc0fffffff =
        leDec (keyK2Clamped.take 16) &&& 0x0ffffffc0ffffffc0ffffffc0fffffff := by decide
theorem witness_SecondKeyHalfAlwaysMatters :
    keyK2.length = 32 ∧ keyK2Other.length = 32 ∧ keyK2.take 16 = keyK2Other.take 16 ∧ keyK2 ≠ keyK2Other := by
  decide
theorem witness_BlockBoundaryTagsEqualIff : (List.replicate 16 (0 : Byte)).length = 16 ∧ keyK2.length = 32 := by decide
theorem witness_ZeroMultiplierTagIsSecondHalf :
    (List.replicate 32 (0 : Byte)).length = 32 ∧ keyR (List.replicate 32 0) = 0 := by decide
theorem witness_WrongKeyLengthGivesNoTag :
    ∀ n ∈ [0, 31, 33, 64, 96], (List.replicate n (1 : Byte)).length ≠ 32 ∧ idle.PHASE = .idle := by decide
theorem witness_NothingSurvivesFinal : Inv lastK2 ∧ lastK2.PHASE = .last := ⟨inv_lastK2, by decide⟩
theorem witness_EngineTimeOfMac : keyK2.length = 32 ∧ idle.PHASE = .idle := by decide
theorem witness_InstancesShareNothing :
    Platform.run [1, 0] [State.reset, keyedK2] = some [idle, keyedK2] ∧ [State.reset, keyedK2][1]? = some keyedK2 := by
  decide
theorem witness_AssembledLanesAreTheBytesWritten :
    keyK2.length = 32 ∧ (1 ≤ [(0x75 : Byte)].length ∧ [(0x75 : Byte)].length ≤ 16) ∧
      (1 ≤ (keyK2.take 16).length ∧ (keyK2.take 16).length ≤ 16) := by decide
theorem witness_StatusShowsPhaseAndErr :
    (keyedK2.PHASE = (engine 7 9 11 .keyed .noFault).PHASE ∧ keyedK2.ERR = (engine 7 9 11 .keyed .noFault).ERR) ∧
      Inv errorSeq := ⟨by decide, inv_errorSeq⟩

end Sys2Proof.Tests
end

section
/-! PROOFS. Reset (10_state.md R19, 70_reset_and_hazards.md R106): the step of a reset event, and the ports after it. -/

namespace Sys2Proof.Machine

/-- Which events are kept; `step_of_resets` leaves them open. -/
theorem step_of_resetLow {s : State} {rest : List PortIn} (h : s.inputs = .resetLow :: rest) :
    step s = .next (resetWith rest) := by
  have hp : portAction s = .settle (resetWith rest) := by rw [portAction, h]
  rw [step, hp]

@[simp] theorem resetWith_status (rest : List PortIn) : (resetWith rest).status = 0b00000#5 := by
  rw [State.status, resetWith_ERR, resetWith_PHASE]
  decide

theorem rspOut_of_none {s : State} (h : s.rsp = none) : s.rspOut = 0 := by
  rw [State.rspOut, h, Option.getD_none]

/-- Settles O21: a reset event leads to `resetWith`, whose ports follow from `ERR`, `PHASE` and the absent response. -/
theorem resetFromAnyState : Obligations.ResetFromAnyState := by
  intro s rest h
  exact ⟨step_of_resetLow h, resetWith_status rest, rspOut_of_none rfl⟩

end Sys2Proof.Machine
end

section
/-! PROOFS. The little-endian codec byte by byte (20_memory.md R24, R25). -/

namespace Sys2Proof

/-- Digit `i + 1` of a longer string is digit `i` of its tail, weighted by 256 more (20_memory.md R24). -/
theorem leDec_eq_sum (bs : List Byte) :
    leDec bs = ((List.range bs.length).map fun i => (bs.getD i 0).toNat * 2 ^ (8 * i)).sum := by
  induction bs with
  | nil => rfl
  | cons b bs ih =>
    have hw (i : Nat) : (bs.getD i 0).toNat * 2 ^ (8 * (i + 1)) = 256 * ((bs.getD i 0).toNat * 2 ^ (8 * i)) := by
      rw [Nat.mul_add, Nat.pow_add]; ring
    simp only [leDec, ih, List.length_cons, List.range_succ_eq_map, List.map_cons, List.map_map, List.sum_cons,
      Function.comp_def, List.getD_cons_zero, List.getD_cons_succ, hw, List.sum_map_mul_left, Nat.mul_zero,
      Nat.pow_zero, Nat.mul_one]

/-- Byte `i + 1` of `v` is byte `i` of `v / 256` (20_memory.md R25). -/
theorem leEnc_getD {k i : Nat} (v : Nat) (h : i < k) : ((leEnc k v).getD i 0).toNat = v / 2 ^ (8 * i) % 256 := by
  induction k generalizing v i with
  | zero => omega
  | succ k ih =>
    cases i with
    | zero => simp [leEnc]
    | succ i =>
      have hp : 2 ^ (8 * (i + 1)) = 256 * 2 ^ (8 * i) := by rw [Nat.mul_add, Nat.pow_add]; omega
      rw [leEnc, List.getD_cons_succ, ih (v / 256) (by omega), hp, Nat.div_div_eq_div_mul]

/-- Settles O30: each codec byte by byte, with the bound and the two inverse laws of the codec's support lemmas. -/
theorem littleEndianCodec : Obligations.LittleEndianCodec := by
  refine ⟨by decide, by decide, fun bs => ?_, fun k v => ?_⟩
  · exact ⟨leDec_eq_sum bs, leDec_lt bs, leEnc_leDec bs⟩
  · exact ⟨leEnc_length k v, leDec_leEnc k v, fun _ h => leEnc_getD v h⟩

end Sys2Proof
end

section
/-! PROOFS. The clamp on bytes and on bits (40_key_load_clamp.md R51, R52): the mask is read off once byte by byte and
once bit by bit, and a bitwise `and` acts on each byte and on each bit alone. -/

namespace Sys2Proof

/-- Byte `i` of a bitwise `and` depends on the two bytes `i` alone. -/
theorem leEnc_getD_and {k i : Nat} (v m : Nat) (h : i < k) :
    (leEnc k (v &&& m)).getD i 0 = (leEnc k v).getD i 0 &&& (leEnc k m).getD i 0 := by
  apply BitVec.eq_of_toNat_eq
  rw [BitVec.toNat_and, leEnc_getD _ h, leEnc_getD _ h, leEnc_getD _ h, Nat.and_div_two_pow]
  exact Nat.and_mod_two_pow (n := 8)

namespace Machine

/-- The mask against the prose of its rule (40_key_load_clamp.md R51). -/
theorem clampMask_bytes :
    leEnc 16 clampMask.toNat =
      [0xff, 0xff, 0xff, 0x0f, 0xfc, 0xff, 0xff, 0x0f, 0xfc, 0xff, 0xff, 0x0f, 0xfc, 0xff, 0xff, 0x0f] := by
  decide

theorem clampMask_byte {j : Nat} (h : j < 16) :
    (leEnc 16 clampMask.toNat).getD j 0 =
      if j = 3 ∨ j = 7 ∨ j = 11 ∨ j = 15 then 0x0f else if j = 4 ∨ j = 8 ∨ j = 12 then 0xfc else 0xff := by
  rw [clampMask_bytes]
  decide +revert

theorem clampMask_getLsbD {i : Nat} (h : i < 128) :
    clampMask.getLsbD i =
      !((28 ≤ i && i ≤ 33) || (60 ≤ i && i ≤ 65) || (92 ≤ i && i ≤ 97) || (124 ≤ i && i ≤ 127)) := by
  decide +revert

/-- The number of a key half fits in 128 bits, so the clamp loses nothing but what the mask clears. -/
theorem clamp_leDec_toNat {k : List Byte} (h : k.length = 16) :
    (clamp (BitVec.ofNat 128 (leDec k))).toNat = leDec k &&& clampMask.toNat := by
  have hlt := leDec_lt k
  rw [h] at hlt
  rw [clamp, BitVec.toNat_and, BitVec.toNat_ofNat, Nat.mod_eq_of_lt hlt]

/-- A byte of the clamped key half is the key byte under the mask's byte at the same offset. -/
theorem clamp_leDec_getD {k : List Byte} {j : Nat} (hk : k.length = 16) (hj : j < 16) :
    (leEnc 16 (clamp (BitVec.ofNat 128 (leDec k))).toNat).getD j 0 =
      k.getD j 0 &&& (leEnc 16 clampMask.toNat).getD j 0 := by
  have hback : leEnc 16 (leDec k) = k := hk ▸ leEnc_leDec k
  rw [clamp_leDec_toNat hk, leEnc_getD_and _ _ hj, hback]

theorem clamp_idem (x : BitVec 128) : clamp (clamp x) = clamp x := by
  rw [clamp, clamp, BitVec.and_assoc, BitVec.and_self]

/-- Settles O31: the key byte meets the mask's byte, which is `0f`, `fc` or, where nothing is cleared, all ones. -/
theorem clampBytewise : Obligations.ClampBytewise := by
  refine ⟨clampMask_bytes, fun k j hk hj => ?_⟩
  rw [clamp_leDec_getD hk hj, clampMask_byte hj]
  split_ifs with h0f hfc
  · rfl
  · rfl
  · exact BitVec.and_allOnes

/-- Settles O32: (a) from the mask's bits, (b) and (c) from `and` with a fixed mask; (d) is the definition. -/
theorem clampProperties : Obligations.ClampProperties := by
  refine ⟨fun x i hi => ?bits, fun x => ⟨clamp_le x, by decide⟩, clamp_idem, fun x y h => h, ?zero, ?ones⟩
  case bits => rw [clamp, BitVec.getLsbD_and, clampMask_getLsbD hi]
  case zero => exact BitVec.zero_and
  case ones => exact BitVec.allOnes_and

end Machine

end Sys2Proof
end

section
/-! PROOFS. The block integer (41_block_absorb.md R55, R56): the marker bit lies just above the chunk's bytes, so it is
the top bit of the number, its place gives the length, and below it stand the bytes. -/

namespace Sys2Proof

theorem leDec_replicate_zero (k : Nat) : leDec (List.replicate k 0) = 0 := by
  induction k with
  | zero => rfl
  | succ k ih => rw [List.replicate_succ, leDec, ih]; rfl

namespace Machine

/-- The marker bit is a byte `01` after the chunk (41_block_absorb.md R55). -/
theorem blockInt_eq_leDec_append (c : List Byte) : blockInt c = leDec (c ++ [0x01#8]) := by
  simp [blockInt, leDec_append, leDec]

theorem two_pow_le_blockInt (c : List Byte) : 2 ^ (8 * c.length) ≤ blockInt c := Nat.le_add_left _ _

theorem blockInt_lt (c : List Byte) : blockInt c < 2 ^ (8 * c.length + 1) := by
  have hlt := leDec_lt c
  rw [blockInt, Nat.pow_succ]
  omega

theorem blockInt_ne_zero (c : List Byte) : blockInt c ≠ 0 :=
  Nat.ne_of_gt (Nat.lt_of_lt_of_le (Nat.two_pow_pos _) (two_pow_le_blockInt c))

/-- The top bit of a block integer is its marker bit (41_block_absorb.md R56). -/
theorem log2_blockInt (c : List Byte) : Nat.log2 (blockInt c) = 8 * c.length :=
  (Nat.log2_eq_iff (blockInt_ne_zero c)).mpr ⟨two_pow_le_blockInt c, blockInt_lt c⟩

/-- Equal numbers have the marker at the same place, so the chunks have one length and equal bytes below it. -/
theorem blockInt_inj {c d : List Byte} (h : blockInt c = blockInt d) : c = d := by
  have hlen : c.length = d.length := by
    have hlog := congrArg Nat.log2 h
    rw [log2_blockInt, log2_blockInt] at hlog
    omega
  rw [blockInt, blockInt, hlen] at h
  exact leDec_inj hlen (Nat.add_right_cancel h)

/-- Zeros after a chunk move the marker up and change nothing below it (41_block_absorb.md R56). -/
theorem blockInt_append_zeros (c : List Byte) (k : Nat) :
    blockInt (c ++ List.replicate k 0) = leDec c + 2 ^ (8 * (c.length + k)) := by
  rw [blockInt, leDec_append, leDec_replicate_zero, Nat.mul_zero, Nat.add_zero, List.length_append,
    List.length_replicate]

/-- The bounds that hold for every chunk of 1 to 16 bytes (41_block_absorb.md R56). -/
theorem blockInt_bounds {c : List Byte} (h1 : 1 ≤ c.length) (h16 : c.length ≤ 16) :
    256 ≤ blockInt c ∧ blockInt c < 2 ^ 129 := by
  have hlow : 2 ^ 8 ≤ 2 ^ (8 * c.length) := Nat.pow_le_pow_right (by decide) (by omega)
  have hhigh : 2 ^ (8 * c.length + 1) ≤ 2 ^ 129 := Nat.pow_le_pow_right (by decide) (by omega)
  exact ⟨Nat.le_trans hlow (two_pow_le_blockInt c), Nat.lt_of_lt_of_le (blockInt_lt c) hhigh⟩

/-- Settles O33: every clause from the place of the marker bit; zero-padding moves it, so the chunks differ. -/
theorem blockIntegerTellsChunksApart : Obligations.BlockIntegerTellsChunksApart := by
  refine ⟨fun _ _ => rfl, blockInt_eq_leDec_append, fun c h1 h16 => ?range, fun c => ⟨blockInt_ne_zero c, ?length⟩,
    fun _ _ => blockInt_inj, fun c h => ?padding⟩
  case range =>
    obtain ⟨hlow, hhigh⟩ := blockInt_bounds h1 h16
    exact ⟨two_pow_le_blockInt c, blockInt_lt c, hlow, hhigh, congrArg (· + 1) (log2_blockInt c)⟩
  case length => rw [log2_blockInt, Nat.mul_div_cancel_left _ (by decide)]
  case padding =>
    have hpad : blockInt (c ++ List.replicate (16 - c.length) 0) = leDec c + 2 ^ 128 := by
      rw [blockInt_append_zeros, Nat.add_sub_cancel' (Nat.le_of_lt h)]
    refine ⟨fun heq => ?_, hpad⟩
    have hlen := congrArg List.length (blockInt_inj (heq.trans hpad.symm))
    rw [List.length_append, List.length_replicate] at hlen
    omega

end Machine

end Sys2Proof
end

section
/-! PROOFS. The chunks of a message (44_compute_tag.md R70): the first `n` slices of 16 bytes are the message's first
`16 n` bytes, and the chunk at place `i` has what is left there, 16 bytes at most. -/

namespace Sys2Proof.Machine

/-- `n` adjacent slices of `k` bytes, joined, are a prefix. -/
theorem flatten_slices (k n : Nat) (msg : List Byte) :
    ((List.range n).map fun i => (msg.drop (k * i)).take k).flatten = msg.take (k * n) := by
  induction n with
  | zero => simp
  | succ n ih =>
    rw [List.range_succ, List.map_append, List.flatten_append, ih, Nat.mul_succ, List.take_add]
    simp

theorem chunks_flatten (msg : List Byte) : (chunks msg).flatten = msg := by
  have hcover : msg.length ≤ 16 * chunkCount msg.length := by rw [chunkCount]; omega
  rw [chunks, flatten_slices, List.take_of_length_le hcover]

/-- The slice in the source's own form, with both bounds (44_compute_tag.md R70). -/
theorem chunks_getD_eq_slice {msg : List Byte} {i : Nat} (h : i < (msg.length + 15) / 16) :
    (chunks msg).getD i [] = (msg.take (min (16 * (i + 1)) msg.length)).drop (16 * i) := by
  have hwidth : 16 * (i + 1) - 16 * i = 16 := by omega
  rw [chunks_getD h, ← List.take_eq_take_min, List.drop_take, hwidth]

theorem chunks_getD_length {msg : List Byte} {i : Nat} (h : i < (msg.length + 15) / 16) :
    ((chunks msg).getD i []).length = min 16 (msg.length - 16 * i) := by
  rw [chunks_getD h, List.length_take, List.length_drop]

theorem chunk_length_bounds {msg c : List Byte} (h : c ∈ chunks msg) : 1 ≤ c.length ∧ c.length ≤ 16 := by
  obtain ⟨i, hi, rfl⟩ := List.mem_iff_getElem.mp h
  have hplace := hi
  rw [chunks_length] at hplace
  have hlen := chunks_getD_length hplace
  rw [List.getD_eq_getElem _ _ hi] at hlen
  omega

/-- Settles O36: the joined slices reach the message's end, and each place before it has a byte left for its chunk. -/
theorem chunksCutTheMessage : Obligations.ChunksCutTheMessage := by
  refine fun msg => ⟨chunks_length msg, chunks_flatten msg, fun i hi => ?place, fun _ => chunk_length_bounds⟩
  case place =>
    rw [chunks_length] at hi ⊢
    refine ⟨chunks_getD_eq_slice hi, ?_⟩
    rw [chunks_getD_length hi]
    split_ifs with hlast <;> omega

end Sys2Proof.Machine
end

section
/-! PROOFS. Faults and the phase `ERROR` (60_exceptions.md R86, R89, R90): the fault entry and the answer in `ERROR`
with every field written out, the commands that meet them, and the steps from `ERROR`. -/

namespace Sys2Proof.Machine

open Sys2Proof.Safety

/-- The response of a code with no tag, as a number (30_encoding.md R43, R44). -/
theorem rspWord_eq_codeWord (c : ErrCode) : rspWord c false 0 = codeWord c := by
  cases c <;> rfl

/-- The fault entry, every field written out (60_exceptions.md R89). -/
theorem raise_eq_afterFault (f : ErrCode) (s : State) : raise f s = afterFault f s := by
  rw [afterFault, ← rspWord_eq_codeWord]; rfl

/-- The answer in `ERROR`, every field written out (60_exceptions.md R90). -/
theorem respond_ERR_eq_afterSticky (s : State) : respond s.ERR s = afterSticky s := by
  rw [afterSticky, ← rspWord_eq_codeWord]; rfl

theorem sameRegisters_afterSticky (s : State) : SameRegisters s (afterSticky s) := ⟨rfl, rfl, rfl, rfl, rfl⟩

theorem exec_of_not_wellFormed {i : Instr} {s : State} (hp : s.PHASE ≠ .error) (hw : i.wellFormed = false) :
    exec i s = .next (afterFault (lenFault i.op) s) := by
  have hf : decodeFault i.op i.len = lenFault i.op := decodeFault_of_not_wellFormed hw
  have hn : decodeFault i.op i.len ≠ .noFault := fun h => by simp [(Laws.LegalLen.all i).mpr h] at hw
  rw [exec_of_raises (admission_decodeFault hp hn), hf, raise_eq_afterFault]

theorem exec_of_not_admits {i : Instr} {s : State} (hp : s.PHASE ≠ .error) (hw : i.wellFormed = true)
    (ha : ¬Admits s.PHASE i.op) : exec i s = .next (afterFault .seq s) := by
  have hf : decodeFault i.op i.len = .noFault := (Laws.LegalLen.all i).mp hw
  have hn : phaseFault s.PHASE i.op ≠ .noFault := fun h => ha ((admits_iff hp).mpr h)
  rw [exec_of_raises (admission_phaseFault hp hf hn), phaseFault_eq_seq hn, raise_eq_afterFault]

theorem exec_of_error {i : Instr} {s : State} (hp : s.PHASE = .error) (hc : ¬(i.op = .clr ∧ i.len = 0)) :
    exec i s = .next (afterSticky s) := by
  have ha : admission i.op i.len s.PHASE = .sticky := by rw [hp]; exact admission_error_sticky hc
  rw [exec_of_sticky ha, respond_ERR_eq_afterSticky]

/-- A well-formed `CLR` is known by its two header fields; its lanes are free. -/
theorem eq_clr_zero {i : Instr} (h : i.op = .clr ∧ i.len = 0) : ∃ data, i = .clr 0 data := by
  obtain ⟨hop, hlen⟩ := h
  cases i with
  | clr len data => exact ⟨data, congrArg (Instr.clr · data) hlen⟩
  | ldkey len data => cases hop
  | absorb len data => cases hop
  | final len data => cases hop

/-- Every phase admits `CLR` (43_control.md R68). -/
theorem exec_clr_zero (data : Data) (s : State) : exec (.clr 0 data) s = .next (clearEngine s) := by
  have ha : Admits s.PHASE .clr := by cases s.PHASE <;> simp [Admits]
  exact exec_of_execute (i := .clr 0 data) (admission_of_admits rfl ha)

/-- What an accepted command can do in `ERROR` (60_exceptions.md R90, R91). -/
theorem exec_error_cases {i : Instr} {s t : State} (hp : s.PHASE = .error) (h : exec i s = .next t) :
    (∃ data, i = .clr 0 data ∧ t = clearEngine s) ∨ t = afterSticky s := by
  by_cases hc : i.op = .clr ∧ i.len = 0
  · obtain ⟨data, rfl⟩ := eq_clr_zero hc
    rw [exec_clr_zero, Host.Outcome.next.injEq] at h
    exact .inl ⟨data, rfl, h.symm⟩
  · rw [exec_of_error hp hc, Host.Outcome.next.injEq] at h
    exact .inr h.symm

/-- What a step from `ERROR` can do to the registers (60_exceptions.md R90). -/
theorem step_error_cases {s t : State} (hp : s.PHASE = .error) (h : step s = .next t) :
    SameRegisters s t ∨ Resets s ∨ ∃ w data, Accepts s w ∧ decode w = .clr 0 data := by
  obtain ⟨hr, -⟩ | ⟨w, hw, hx⟩ | ⟨-, -, ⟨-, rfl | rfl⟩ | ⟨-, rfl⟩⟩ := step_cases h
  case inl => exact .inr (.inl hr)
  case inr.inl =>
    obtain ⟨data, hd, -⟩ | rfl := exec_error_cases (s := { s with inputs := s.inputs.tail }) hp hx
    · exact .inr (.inr ⟨w, data, hw, hd⟩)
    · exact .inl (sameRegisters_afterSticky { s with inputs := s.inputs.tail })
  all_goals exact .inl ⟨rfl, rfl, rfl, rfl, rfl⟩

/-- Settles O11: outside the well-formed `CLR` the verdict in `ERROR` is sticky, and a step that neither resets nor
accepts a word moves only the ports. -/
theorem errorIsStickyUntilClrOrReset : Obligations.ErrorIsStickyUntilClrOrReset :=
  ⟨fun _ _ => exec_of_error, fun _ _ => step_error_cases⟩

/-- Settles O9: the verdict looks at the decode fault before the phase fault; in `ERROR` only `CLR` writes `ERR`, and
it ends in `IDLE`. -/
theorem decodeFaultBeforePhaseFault : Obligations.DecodeFaultBeforePhaseFault := by
  refine ⟨fun _ _ => exec_of_not_wellFormed, fun _ _ => exec_of_not_admits, fun i s t h hs ht => ?keepsCause⟩
  case keepsCause =>
    obtain ⟨data, -, rfl⟩ | rfl := exec_error_cases hs h
    · cases ht
    · rfl

end Sys2Proof.Machine
end

section
/-! PROOFS. The encoding (30_encoding.md R36 to R40): the three fields of a word as numbers, decoder and encoder as
inverses of each other on words, and from there on byte strings. -/

namespace Sys2Proof

-- A word has 264 bits, more than the default bound up to which powers are evaluated.
set_option exponentiation.threshold 300

theorem encode_toNat (i : Instr) :
    (encode i).toNat = 256 * i.data.toNat + (64 * i.op.bits.toNat + i.len.toNat) := by
  rw [encode, Machine.toNat_append_eq, Machine.toNat_append_eq]
  rfl

theorem wordLen_toNat (w : CmdWord) : (wordLen w).toNat = w.toNat % 64 := by
  simp [wordLen, BitVec.extractLsb'_toNat]

theorem wordData_toNat (w : CmdWord) : (wordData w).toNat = w.toNat / 256 := by
  have hw := w.isLt
  rw [wordData, BitVec.extractLsb'_toNat, Nat.shiftRight_eq_div_pow]
  omega

theorem bits_ofBits (b : BitVec 2) : (Op.ofBits b).bits = b := by
  decide +revert

theorem ofBits_bits (op : Op) : Op.ofBits op.bits = op := by
  cases op <;> rfl

theorem wordOp_bits_toNat (w : CmdWord) : (wordOp w).bits.toNat = w.toNat / 64 % 4 := by
  rw [wordOp, bits_ofBits, BitVec.extractLsb'_toNat, Nat.shiftRight_eq_div_pow]

theorem bits_inj {op op' : Op} (h : op.bits.toNat = op'.bits.toNat) : op = op' := by
  rw [← ofBits_bits op, BitVec.eq_of_toNat_eq h, ofBits_bits]

@[simp] theorem op_ofFields (op : Op) (len : Len) (data : Data) : (Instr.ofFields op len data).op = op := by
  cases op <;> rfl

@[simp] theorem len_ofFields (op : Op) (len : Len) (data : Data) : (Instr.ofFields op len data).len = len := by
  cases op <;> rfl

@[simp] theorem data_ofFields (op : Op) (len : Len) (data : Data) : (Instr.ofFields op len data).data = data := by
  cases op <;> rfl

/-- A command is its three fields. -/
theorem ofFields_eta (i : Instr) : Instr.ofFields i.op i.len i.data = i := by
  cases i <;> rfl

@[simp] theorem op_decode (w : CmdWord) : (decode w).op = wordOp w := op_ofFields _ _ _
@[simp] theorem len_decode (w : CmdWord) : (decode w).len = wordLen w := len_ofFields _ _ _
@[simp] theorem data_decode (w : CmdWord) : (decode w).data = wordData w := data_ofFields _ _ _

@[simp] theorem wordLen_encode (i : Instr) : wordLen (encode i) = i.len := by
  apply BitVec.eq_of_toNat_eq
  have hl := i.len.isLt
  rw [wordLen_toNat, encode_toNat]
  omega

@[simp] theorem wordOp_encode (i : Instr) : wordOp (encode i) = i.op := by
  apply bits_inj
  have hl := i.len.isLt
  have ho := i.op.bits.isLt
  rw [wordOp_bits_toNat, encode_toNat]
  omega

@[simp] theorem wordData_encode (i : Instr) : wordData (encode i) = i.data := by
  apply BitVec.eq_of_toNat_eq
  have hl := i.len.isLt
  have ho := i.op.bits.isLt
  rw [wordData_toNat, encode_toNat]
  omega

theorem decode_encode (i : Instr) : decode (encode i) = i := by
  rw [decode, wordOp_encode, wordLen_encode, wordData_encode, ofFields_eta]

/-- No bit of a word is lost: the fields cover all 264 (30_encoding.md R36). -/
theorem encode_decode (w : CmdWord) : encode (decode w) = w := by
  apply BitVec.eq_of_toNat_eq
  rw [encode_toNat, data_decode, op_decode, len_decode, wordData_toNat, wordOp_bits_toNat, wordLen_toNat]
  omega

theorem encodeBytes_length (i : Instr) : (encodeBytes i).length = 33 := leEnc_length _ _

theorem decodeBytes_of_length {bytes : List Byte} (h : 33 ≤ bytes.length) :
    decodeBytes bytes = .ok (decode (BitVec.ofNat 264 (leDec (bytes.take 33))), bytes.drop 33) :=
  if_neg (Nat.not_lt.mpr h)

theorem ofNat_leDec_encodeBytes (i : Instr) : BitVec.ofNat 264 (leDec (encodeBytes i)) = encode i := by
  apply BitVec.eq_of_toNat_eq
  rw [encodeBytes, leDec_leEnc, BitVec.toNat_ofNat, Nat.mod_mod, Nat.mod_eq_of_lt (encode i).isLt]

/-- The byte form of the command that 33 bytes decode to is those bytes (30_encoding.md R37). -/
theorem encodeBytes_decode_leDec {bs : List Byte} (h : bs.length = 33) :
    encodeBytes (decode (BitVec.ofNat 264 (leDec bs))) = bs := by
  have hlt := leDec_lt bs
  rw [h] at hlt
  rw [encodeBytes, encode_decode, BitVec.toNat_ofNat, Nat.mod_eq_of_lt hlt, ← h, leEnc_leDec]

/-- Settles O2: the number of the byte form is the word, and `decode` undoes `encode`. -/
theorem decodeOfEncodedBytes : Obligations.DecodeOfEncodedBytes := by
  intro i rest
  have hlen := encodeBytes_length i
  have hlong : 33 ≤ (encodeBytes i ++ rest).length := by rw [List.length_append, hlen]; exact Nat.le_add_right _ _
  rw [decodeBytes_of_length hlong, List.take_left' hlen, List.drop_left' hlen, ofNat_leDec_encodeBytes, decode_encode]

/-- Settles O3: 33 bytes are a word, and `encode` undoes `decode`. -/
theorem everyByteFormIsOneCommand : Obligations.EveryByteFormIsOneCommand := by
  refine fun bytes => ⟨fun h => ⟨_, decodeBytes_of_length h, ?_⟩, fun h => if_pos h⟩
  exact encodeBytes_decode_leDec (List.length_take_of_le h)

/-- The header byte is `OP` above `LEN` (30_encoding.md R36). -/
theorem header_toNat (w : CmdWord) : w.toNat % 256 = 64 * (wordOp w).bits.toNat + (wordLen w).toNat := by
  rw [wordOp_bits_toNat, wordLen_toNat]
  omega

/-- Settles O4: each opcode owns one quarter of the header bytes, and `LEN` is the place within it. -/
theorem headerByteDecidesDecodeFault : Obligations.HeaderByteDecidesDecodeFault := by
  intro w h hh
  have hlen := (wordLen w).isLt
  refine ⟨?ranges, ?wellFormed⟩
  case ranges =>
    rw [header_toNat] at hh
    rw [wordFault]
    cases hop : wordOp w <;> simp only [hop, Op.bits, BitVec.reduceToNat] at hh <;> simp only [decodeFault] <;>
      split_ifs <;> try rfl
    all_goals omega
  case wellFormed =>
    have hwf := Laws.LegalLen.all (decode w)
    rwa [Laws.LegalLen.Statement, op_decode, len_decode] at hwf

/-- Settles O1: the five words are closed, so the decoder computes their fields. -/
theorem wordOfEachCommandDecodes : Obligations.WordOfEachCommandDecodes := by
  unfold Obligations.WordOfEachCommandDecodes
  decide

end Sys2Proof
end

section
/-! PROOFS. The invariant of 10_state.md R21 over one step: the shape of each response, what each effect, each fault
entry and each reset leaves, and the one lemma on `exec` that every step needs. -/

namespace Sys2Proof.Machine

open Sys2Proof.Safety

theorem bits_toNat_le (c : ErrCode) : c.bits.toNat ≤ 4 := by
  cases c <;> decide

/-- The two conditions of 30_encoding.md R44 on the fields make a well-shaped response. -/
theorem responseShape_rspWord {c : ErrCode} {v : Bool} {tag : BitVec 128} (hc : v = true → c = .noFault)
    (ht : v = false → tag = 0) : ResponseShape (rspWord c v tag) where
  reserved := rspWord_reserved c v tag
  status := by rw [rspWord_status]; exact bits_toNat_le c
  faultHasNoTag h := by
    rw [rspWord_status] at h
    rw [rspWord_tagv]
    cases v with
    | false => rfl
    | true => exact absurd (by rw [hc rfl]; rfl) h
  noTagLanes h := by
    rw [rspWord_tagv] at h
    rw [rspWord_tag, ht h]

theorem responseShape_code (c : ErrCode) : ResponseShape (rspWord c false 0) :=
  responseShape_rspWord (fun h => nomatch h) fun _ => rfl

theorem responseShape_tag (tag : BitVec 128) : ResponseShape (rspWord .noFault true tag) :=
  responseShape_rspWord (fun _ => rfl) fun h => nomatch h

/-- A state with a new response meets the invariant if its registers do. -/
theorem inv_of_registers {s : State} {q : RspWord} (hR : s.R &&& ~~~clampMask = 0) (hACC : s.ACC.toNat < P)
    (hw : s.PHASE = .idle ∨ s.PHASE = .error → s.R = 0 ∧ s.S = 0 ∧ s.ACC = 0)
    (hE : s.ERR ≠ .noFault ↔ s.PHASE = .error) (hq : ResponseShape q) : Inv (emit q s) where
  clamped := hR
  canonical := hACC
  wiped := hw
  errIffError := hE
  response q' h := by
    rw [emit_rsp, Option.some.injEq] at h
    exact h ▸ hq
  oneOutstanding _ := rfl

/-- An engine with nothing in its three secret registers. -/
theorem inv_of_wiped {s : State} {q : RspWord} (hz : s.R = 0 ∧ s.S = 0 ∧ s.ACC = 0)
    (hE : s.ERR ≠ .noFault ↔ s.PHASE = .error) (hq : ResponseShape q) : Inv (emit q s) := by
  obtain ⟨hR, hS, hACC⟩ := hz
  refine inv_of_registers ?_ ?_ (fun _ => ⟨hR, hS, hACC⟩) hE hq
  · rw [hR]; exact BitVec.zero_and
  · rw [hACC]; exact P_pos

/-- An engine in the middle of a computation. -/
theorem inv_of_computing {s : State} {q : RspWord} (hp : s.PHASE = .keyed ∨ s.PHASE = .last)
    (hE : s.ERR = .noFault) (hR : s.R &&& ~~~clampMask = 0) (hACC : s.ACC.toNat < P) (hq : ResponseShape q) :
    Inv (emit q s) := by
  refine inv_of_registers hR hACC (fun h => ?_) ⟨fun h => absurd hE h, fun h => ?_⟩ hq <;>
    rcases hp with hp | hp <;> simp [hp] at h

theorem inv_raise {f : ErrCode} (hf : f ≠ .noFault) (s : State) : Inv (raise f s) :=
  inv_of_wiped ⟨rfl, rfl, rfl⟩ ⟨fun _ => rfl, fun _ => hf⟩ (responseShape_code f)

theorem inv_clearEngine (s : State) : Inv (clearEngine s) :=
  inv_of_wiped ⟨rfl, rfl, rfl⟩ (by simp) (responseShape_code _)

theorem inv_loadKey (data : Data) {s : State} (hE : s.ERR = .noFault) : Inv (loadKey data s) :=
  inv_of_computing (.inl rfl) hE (clamp_cleared _) P_pos (responseShape_code _)

theorem absorbBlock_PHASE_cases (L : Nat) (data : Data) (s : State) :
    (absorbBlock L data s).PHASE = .keyed ∨ (absorbBlock L data s).PHASE = .last := by
  rw [absorbBlock_PHASE]
  split_ifs
  · exact .inl rfl
  · exact .inr rfl

theorem inv_absorbBlock (L : Nat) (data : Data) {s : State} (hi : Inv s) (hE : s.ERR = .noFault) :
    Inv (absorbBlock L data s) := by
  have hACC := macstep_lt s.ACC.toNat (blkEnc data L) s.R.toNat
  rw [← macstep_toNat] at hACC
  exact inv_of_computing (absorbBlock_PHASE_cases L data s) hE hi.clamped hACC (responseShape_code _)

theorem inv_finish {s : State} (hE : s.ERR = .noFault) : Inv (finish s) :=
  inv_of_wiped ⟨rfl, rfl, rfl⟩ (by simp [hE]) (responseShape_tag _)

theorem inv_afterSticky {s : State} (hi : Inv s) : Inv (afterSticky s) := by
  rw [← respond_ERR_eq_afterSticky]
  exact inv_of_registers hi.clamped hi.canonical hi.wiped hi.errIffError (responseShape_code _)

theorem noFault_of_ne_error {s : State} (hi : Inv s) (hp : s.PHASE ≠ .error) : s.ERR = .noFault :=
  not_not.mp fun h => hp (hi.errIffError.mp h)

/-- A command other than `CLR` runs outside `ERROR` only, so it finds `ERR` clear. -/
theorem inv_effectOf {i : Instr} {s : State} (hi : Inv s) (hx : admission i.op i.len s.PHASE = .execute) :
    Inv (effectOf i s) := by
  have hE (hop : i.op ≠ .clr) : s.ERR = .noFault := by
    obtain ⟨-, ⟨-, hc⟩ | ⟨hp, -⟩⟩ := admission_eq_execute hx
    · exact absurd hc hop
    · exact noFault_of_ne_error hi hp
  cases i with
  | clr len data => exact inv_clearEngine s
  | ldkey len data => exact inv_loadKey data (hE (by simp [Instr.op]))
  | absorb len data => exact inv_absorbBlock len.toNat data hi (hE (by simp [Instr.op]))
  | final len data => exact inv_finish (hE (by simp [Instr.op]))

theorem exec_keeps_inv {i : Instr} {s t : State} (hi : Inv s) (h : exec i s = .next t) : Inv t := by
  obtain ⟨hx, rfl⟩ | ⟨-, rfl⟩ | ⟨f, hf, rfl⟩ := exec_cases h
  · exact inv_effectOf hi hx
  · rw [respond_ERR_eq_afterSticky]; exact inv_afterSticky hi
  · exact inv_raise (admission_eq_raises hf).2.1 s

/-- The port events to come are no part of the invariant. -/
theorem inv_with_inputs {s : State} (hi : Inv s) (ins : List PortIn) : Inv { s with inputs := ins } :=
  ⟨hi.clamped, hi.canonical, hi.wiped, hi.errIffError, hi.response, hi.oneOutstanding⟩

/-- An engine whose response was taken, or never given, may be ready. -/
theorem inv_ready {s : State} (hi : Inv s) (ins : List PortIn) :
    Inv { s with rsp := none, cmdReady := true, inputs := ins } :=
  ⟨hi.clamped, hi.canonical, hi.wiped, hi.errIffError, (fun _ h => nomatch h), (fun h => nomatch h)⟩

theorem inv_resetWith (rest : List PortIn) : Inv (resetWith rest) :=
  ⟨BitVec.zero_and, P_pos, fun _ => ⟨rfl, rfl, rfl⟩, by simp, (fun _ h => nomatch h), (fun h => nomatch h)⟩

/-- Settles O23: the reset state is `resetWith` of the events to come. -/
theorem invHoldsAtReset : Obligations.InvHoldsAtReset := inv_resetWith

/-- Settles O24: a reset establishes the invariant, `exec` keeps it, and every other step moves ports only. -/
theorem stepKeepsInv : Obligations.StepKeepsInv := by
  intro s t hi h
  obtain ⟨-, rest, rfl⟩ | ⟨w, -, hx⟩ | ⟨-, -, ⟨-, rfl | rfl⟩ | ⟨hrsp, rfl⟩⟩ := step_cases h
  · exact inv_resetWith rest
  · exact exec_keeps_inv (inv_with_inputs hi _) hx
  · exact inv_ready hi _
  · exact inv_with_inputs hi _
  · have hnone : s = { s with rsp := none } := by rw [← hrsp]
    rw [hnone]
    exact inv_ready hi _

end Sys2Proof.Machine
end

section
/-! PROOFS. What each command does when it runs, with every field written out, and the two cases in which it does not
(60_exceptions.md R88). -/

namespace Sys2Proof.Machine

open Sys2Proof.Safety

theorem admits_ldkey_iff {phase : Phase} : Admits phase .ldkey ↔ phase = .idle := by
  cases phase <;> simp [Admits]

theorem admits_absorb_iff {phase : Phase} : Admits phase .absorb ↔ phase = .keyed := by
  cases phase <;> simp [Admits]

theorem admits_final_iff {phase : Phase} : Admits phase .final ↔ phase = .keyed ∨ phase = .last := by
  cases phase <;> simp [Admits]

theorem eq_of_toNat_beq {a b : Len} (h : (a.toNat == b.toNat) = true) : a = b :=
  BitVec.eq_of_toNat_eq (beq_iff_eq.mp h)

theorem toNat_beq_eq_false {a b : Len} (h : a ≠ b) : (a.toNat == b.toNat) = false :=
  beq_eq_false_iff_ne.mpr (BitVec.toNat_inj.not.mpr h)

theorem exec_of_admits {i : Instr} {s : State} (hw : i.wellFormed = true) (ha : Admits s.PHASE i.op) :
    exec i s = .next (effectOf i s) :=
  exec_of_execute (admission_of_admits hw ha)

/-- A command runs exactly where it is well formed and its phase admits it. -/
theorem admission_eq_execute_iff {i : Instr} {phase : Phase} :
    admission i.op i.len phase = .execute ↔ i.wellFormed = true ∧ Admits phase i.op := by
  refine ⟨fun h => ?_, fun ⟨hw, ha⟩ => admission_of_admits hw ha⟩
  obtain ⟨hf, ⟨rfl, hop⟩ | ⟨hp, hs⟩⟩ := admission_eq_execute h
  · exact ⟨(Laws.LegalLen.all i).mpr hf, hop⟩
  · exact ⟨(Laws.LegalLen.all i).mpr hf, (admits_iff hp).mpr hs⟩

/-- A command that does not end in `ERROR` has run. -/
theorem eq_effectOf_of_ne_error {i : Instr} {s t : State} (h : exec i s = .next t) (ht : t.PHASE ≠ .error) :
    admission i.op i.len s.PHASE = .execute ∧ t = effectOf i s := by
  obtain hx | ⟨hx, rfl⟩ | ⟨f, -, rfl⟩ := exec_cases h
  · exact hx
  · exact absurd (admission_eq_sticky hx) ht
  · exact absurd rfl ht

/-! ## The four effects -/

/-- The response of `FINAL` as a number (30_encoding.md R43). -/
theorem rspWord_tag_eq_tagWord (n : Nat) :
    rspWord .noFault true (BitVec.ofNat 128 n) = tagWord n := by
  apply BitVec.eq_of_toNat_eq
  have hb : 8 * true.toNat + ErrCode.noFault.bits.toNat = 8 := rfl
  rw [rspWord_toNat, BitVec.toNat_ofNat, tagWord, BitVec.toNat_ofNat, hb]
  omega

theorem tagWord_toNat {n : Nat} (h : n < 2 ^ 128) : (tagWord n).toNat = 8 + 256 * n := by
  rw [tagWord, BitVec.toNat_ofNat]
  omega

/-- The two key halves are the two halves of the lanes (40_key_load_clamp.md R53). -/
theorem loadKey_eq (data : Data) (s : State) :
    loadKey data s = { s with
      R := data.extractLsb' 0 128 &&& 0x0ffffffc0ffffffc0ffffffc0fffffff#128
      S := data.extractLsb' 128 128
      ACC := 0, PHASE := .keyed, rsp := some 0#136, cmdReady := false } := by
  have hlow : BitVec.ofNat 128 (leDec (keyLow data)) = data.extractLsb' 0 128 := by
    apply BitVec.eq_of_toNat_eq
    rw [leDec_keyLow, BitVec.toNat_ofNat, BitVec.extractLsb'_toNat, Nat.shiftRight_zero, Nat.mod_mod]
  have hhigh : BitVec.ofNat 128 (leDec (keyHigh data)) = data.extractLsb' 128 128 := by
    apply BitVec.eq_of_toNat_eq
    rw [leDec_keyHigh, BitVec.toNat_ofNat, BitVec.extractLsb'_toNat, Nat.shiftRight_eq_div_pow]
  rw [loadKey, hlow, hhigh]
  rfl

theorem absorbBlock_eq (L : Nat) (data : Data) (s : State) :
    absorbBlock L data s = { s with
      ACC := BitVec.ofNat 130
        ((s.R.toNat * (s.ACC.toNat + (data.toNat % 2 ^ (8 * L) + 2 ^ (8 * L)))) % (2 ^ 130 - 5))
      PHASE := if L = 16 then .keyed else .last
      rsp := some 0#136, cmdReady := false } := by
  rw [absorbBlock, blkEnc_eq]
  rfl

theorem finish_eq (s : State) :
    finish s = { s with
      R := 0, S := 0, ACC := 0, PHASE := .idle
      rsp := some (tagWord (tagval s.ACC.toNat s.S.toNat)), cmdReady := false } := by
  have ht := tagval_lt s.ACC.toNat s.S.toNat
  have hrsp : rspWord .noFault true (BitVec.ofNat 128 (leDec (leEnc 16 (tagval s.ACC.toNat s.S.toNat)))) =
      tagWord (tagval s.ACC.toNat s.S.toNat) := by
    rw [leDec_leEnc, Nat.mod_eq_of_lt ht, rspWord_tag_eq_tagWord]
  rw [← hrsp]
  rfl

@[simp] theorem effectOf_inputs (i : Instr) (s : State) : (effectOf i s).inputs = s.inputs := by
  cases i <;> rfl

@[simp] theorem effectOf_cmdReady (i : Instr) (s : State) : (effectOf i s).cmdReady = false := by
  cases i <;> rfl

theorem effectOf_PHASE_ne_error (i : Instr) (s : State) : (effectOf i s).PHASE ≠ .error := by
  cases i with
  | absorb len data =>
    intro h
    rcases absorbBlock_PHASE_cases len.toNat data s with hp | hp <;> exact absurd (hp.symm.trans h) (by decide)
  | _ => simp [effectOf]

/-- A command that runs is answered `OK` (30_encoding.md R44). -/
theorem effectOf_response (i : Instr) (s : State) :
    ∃ q, (effectOf i s).rsp = some q ∧ ResponseShape q ∧ q.extractLsb' 0 3 = 0 := by
  cases i with
  | final len data => exact ⟨_, rfl, responseShape_tag _, rspWord_status ..⟩
  | _ => exact ⟨_, rfl, responseShape_code _, rspWord_status ..⟩

/-! ## The four commands -/

/-- Settles O5: `CLR` with `LEN = 0` runs in every phase; else it meets the decode fault or the answer in `ERROR`. -/
theorem clrZeroisesAndLeavesError : Obligations.ClrZeroisesAndLeavesError := by
  refine ⟨fun data => encode_toNat (.clr 0 data), exec_clr_zero, fun len data s hl hp => ?lenFault,
    fun len data s hl hp => ?sticky⟩
  case lenFault => exact exec_of_not_wellFormed (i := .clr len data) hp (toNat_beq_eq_false hl)
  case sticky => exact exec_of_error hp fun h => hl h.2

/-- Settles O6: `LDKEY` is admitted in `IDLE` alone. -/
theorem ldkeyLoadsClampedKey : Obligations.LdkeyLoadsClampedKey := by
  refine ⟨fun data => encode_toNat (.ldkey 32 data), fun data s hp => ?runs, fun len data s hl hp => ?lenFault,
    fun data s hp => ?phaseFault, fun len data s hp => exec_of_error hp (by simp [Instr.op])⟩
  case runs =>
    rw [exec_of_admits (i := .ldkey 32 data) rfl (admits_ldkey_iff.mpr hp), effectOf, loadKey_eq]
  case lenFault => exact exec_of_not_wellFormed (i := .ldkey len data) hp (toNat_beq_eq_false hl)
  case phaseFault =>
    refine exec_of_not_admits (i := .ldkey 32 data) ?_ rfl (admits_ldkey_iff.not.mpr ?_) <;>
      rcases hp with hp | hp <;> simp [hp]

theorem wellFormed_absorb {len : Len} (data : Data) (h1 : 1 ≤ len.toNat) (h16 : len.toNat ≤ 16) :
    (Instr.absorb len data).wellFormed = true := by
  simp [Instr.wellFormed, h1, h16]

/-- Settles O7: `ABSORB` is admitted in `KEYED` alone. -/
theorem absorbFoldsMarkedChunk : Obligations.AbsorbFoldsMarkedChunk := by
  refine ⟨fun len data => encode_toNat (.absorb len data), fun len data s h1 h16 hp => ?runs,
    fun len data s hl hp => ?lenFault, fun len data s h1 h16 hp => ?phaseFault,
    fun len data s hp => exec_of_error hp (by simp [Instr.op])⟩
  case runs =>
    rw [exec_of_admits (wellFormed_absorb data h1 h16) (admits_absorb_iff.mpr hp), effectOf, absorbBlock_eq]
  case lenFault =>
    refine exec_of_not_wellFormed (i := .absorb len data) hp ?_
    simp only [Instr.wellFormed, Bool.and_eq_false_iff, decide_eq_false_iff_not]
    omega
  case phaseFault =>
    refine exec_of_not_admits ?_ (wellFormed_absorb data h1 h16) (admits_absorb_iff.not.mpr ?_) <;>
      rcases hp with hp | hp <;> simp [hp]

theorem exec_final_zero {s : State} (data : Data) (hp : s.PHASE = .keyed ∨ s.PHASE = .last) :
    exec (.final 0 data) s = .next (finish s) :=
  exec_of_admits (i := .final 0 data) rfl (admits_final_iff.mpr hp)

/-- The byte form of a response with a tag is the status byte `08` and the tag's bytes (30_encoding.md R43). -/
theorem rspBytes_tagWord (a : Nat) : rspBytes (tagWord (a % 2 ^ 128)) = 0x08#8 :: leEnc 16 a := by
  have htag : leEnc 16 (a % 2 ^ 128) = leEnc 16 a := by
    apply leDec_inj
    · rw [leEnc_length, leEnc_length]
    · rw [leDec_leEnc, leDec_leEnc, Nat.mod_mod]
  have hlow : BitVec.ofNat 8 (8 + 256 * (a % 2 ^ 128)) = 0x08#8 := by
    apply BitVec.eq_of_toNat_eq
    rw [BitVec.toNat_ofNat, Nat.add_mul_mod_self_left]
    rfl
  have hhigh : (8 + 256 * (a % 2 ^ 128)) / 256 = a % 2 ^ 128 := by
    rw [Nat.add_mul_div_left _ _ (by decide), Nat.div_eq_of_lt (by decide), Nat.zero_add]
  rw [rspBytes, tagWord_toNat (Nat.mod_lt _ (by decide)), leEnc, hlow, hhigh, htag]

/-- Settles O8: `FINAL` is admitted in `KEYED` and `LAST`. -/
theorem finalAnswersTagAndZeroises : Obligations.FinalAnswersTagAndZeroises := by
  refine ⟨fun data => encode_toNat (.final 0 data), fun data s hp => ?runs, rspBytes_tagWord,
    fun len data s hl hp => ?lenFault, fun data s hp => ?phaseFault,
    fun len data s hp => exec_of_error hp (by simp [Instr.op])⟩
  case runs => rw [exec_final_zero data hp, finish_eq]; rfl
  case lenFault => exact exec_of_not_wellFormed (i := .final len data) hp (toNat_beq_eq_false hl)
  case phaseFault =>
    refine exec_of_not_admits (i := .final 0 data) ?_ rfl (admits_final_iff.not.mpr ?_) <;> simp [hp]

/-- Settles O45: the registers of `finish` are zero, and `ERR` was clear outside `ERROR`. -/
theorem nothingSurvivesFinal : Obligations.NothingSurvivesFinal := by
  intro data s hi hp
  have hE : s.ERR = .noFault := noFault_of_ne_error hi ?_
  · exact ⟨finish s, exec_final_zero data hp, rfl, rfl, rfl, rfl, hE⟩
  rcases hp with hp | hp <;> simp [hp]

/-! ## Every command -/

/-- Settles O10: such a command runs, and no effect ends in `ERROR` or is answered with a code. -/
theorem nothingElseFaults : Obligations.NothingElseFaults := by
  intro i s hw ha
  obtain ⟨q, hq, -, hst⟩ := effectOf_response i s
  exact ⟨_, q, exec_of_admits hw ha, effectOf_PHASE_ne_error i s, hq, hst⟩

/-- Settles O12: the three things that can become of a command all put a response on the port. -/
theorem everyCommandIsAnswered : Obligations.EveryCommandIsAnswered := by
  intro i s
  obtain ⟨t, ht⟩ := exec_isNext i s
  obtain ⟨-, rfl⟩ | ⟨-, rfl⟩ | ⟨f, -, rfl⟩ := exec_cases ht
  · obtain ⟨q, hq, hshape, -⟩ := effectOf_response i s
    exact ⟨_, q, ht, hq, hshape, effectOf_cmdReady i s, effectOf_inputs i s⟩
  · exact ⟨_, _, ht, rfl, responseShape_code _, rfl, rfl⟩
  · exact ⟨_, _, ht, rfl, responseShape_code _, rfl, rfl⟩

theorem exec_inputs {i : Instr} {s t : State} (h : exec i s = .next t) : t.inputs = s.inputs := by
  obtain ⟨-, rfl⟩ | ⟨-, rfl⟩ | ⟨f, -, rfl⟩ := exec_cases h
  · exact effectOf_inputs i s
  · rfl
  · rfl

/-- Settles O14: outside `ERROR` the command has run, so its effect's fields say what it leaves. -/
theorem commandFrames : Obligations.CommandFrames := by
  refine ⟨fun _ _ _ => exec_inputs, fun len data s t h ht => ?absorb, fun len data s t h ht => ?ldkey,
    fun len data s t h ht => ?final, fun i s t h hs ht => ?sticky⟩
  case absorb => obtain ⟨-, rfl⟩ := eq_effectOf_of_ne_error h ht; exact ⟨rfl, rfl, rfl⟩
  case ldkey => obtain ⟨-, rfl⟩ := eq_effectOf_of_ne_error h ht; rfl
  case final => obtain ⟨-, rfl⟩ := eq_effectOf_of_ne_error h ht; rfl
  case sticky =>
    obtain ⟨-, -, rfl⟩ | rfl := exec_error_cases hs h
    · cases ht
    · exact sameRegisters_afterSticky s

end Sys2Proof.Machine
end

section
/-! PROOFS. The transition table (60_exceptions.md R92): a command's fate is one of four, and each decides its cells. -/

namespace Sys2Proof.Machine

open Sys2Proof.Safety

/-- The fate of a command, by `PHASE`, legal `LEN` and admission (60_exceptions.md R86, R88). -/
theorem exec_fate (i : Instr) (s : State) :
    (s.PHASE ≠ .error ∧ i.wellFormed = false ∧ exec i s = .next (afterFault (lenFault i.op) s)) ∨
    (s.PHASE ≠ .error ∧ i.wellFormed = true ∧ ¬Admits s.PHASE i.op ∧ exec i s = .next (afterFault .seq s)) ∨
    (s.PHASE = .error ∧ ¬(i.op = .clr ∧ i.wellFormed = true) ∧ exec i s = .next (afterSticky s)) ∨
    (i.wellFormed = true ∧ Admits s.PHASE i.op ∧ exec i s = .next (effectOf i s)) := by
  cases hw : i.wellFormed with
  | false =>
    by_cases hp : s.PHASE = .error
    · have hc : ¬(i.op = .clr ∧ i.len = 0) := by
        intro h
        obtain ⟨data, rfl⟩ := eq_clr_zero h
        cases hw
      exact .inr (.inr (.inl ⟨hp, by simp, exec_of_error hp hc⟩))
    · exact .inl ⟨hp, rfl, exec_of_not_wellFormed hp hw⟩
  | true =>
    by_cases ha : Admits s.PHASE i.op
    · exact .inr (.inr (.inr ⟨rfl, ha, exec_of_admits hw ha⟩))
    · by_cases hp : s.PHASE = .error
      · have hop : i.op ≠ .clr := fun h => ha (by simp [hp, Admits, h])
        exact .inr (.inr (.inl ⟨hp, fun h => hop h.1, exec_of_error hp fun h => hop h.1⟩))
      · exact .inr (.inl ⟨hp, rfl, ha, exec_of_not_admits hp hw ha⟩)

/-- Settles O13: in each fate the cell is read off, and the invariant after the step gives the register effects. -/
theorem transitionTable : Obligations.TransitionTable := by
  intro i s hi
  obtain ⟨hp, hw, hx⟩ | ⟨hp, hw, ha, hx⟩ | ⟨hp, hc, hx⟩ | ⟨hw, ha, hx⟩ := exec_fate i s
  all_goals have ht := exec_keeps_inv hi hx
  case inl =>
    refine ⟨_, _, hx, rfl, ?_, ht.wiped, noFault_of_ne_error ht⟩
    cases hph : s.PHASE <;> cases hop : i.op <;> simp_all [afterFault, lenFault, codeWord]
  case inr.inl =>
    refine ⟨_, _, hx, rfl, ?_, ht.wiped, noFault_of_ne_error ht⟩
    cases hph : s.PHASE <;> cases hop : i.op <;> simp_all [afterFault, Admits, codeWord]
  case inr.inr.inl =>
    refine ⟨_, _, hx, rfl, ?_, ht.wiped, noFault_of_ne_error ht⟩
    cases hop : i.op <;> simp_all [afterSticky]
  case inr.inr.inr =>
    obtain ⟨q, hq, -, hst⟩ := effectOf_response i s
    refine ⟨_, q, hx, hq, ?_, ht.wiped, noFault_of_ne_error ht⟩
    rw [hst, hw]
    cases i with
    | clr len data => cases s.PHASE <;> rfl
    | ldkey len data =>
      rw [admits_ldkey_iff.mp ha]
      rfl
    | absorb len data =>
      have hl : len.toNat = 16 ↔ len = 16 := by rw [← BitVec.toNat_inj]; rfl
      rw [admits_absorb_iff.mp ha]
      simp only [effectOf, absorbBlock_PHASE, Instr.op, Instr.len, hl]
      rfl
    | final len data =>
      rcases admits_final_iff.mp ha with hp | hp <;> rw [hp] <;> rfl

end Sys2Proof.Machine
end

section
/-! PROOFS. What a command's outcome does not depend on (20_memory.md R29, 30_encoding.md R41, 41_block_absorb.md R62,
70_reset_and_hazards.md R102): the verdict reads the header and `PHASE` only, and each effect's public fields depend on
the header only. -/

namespace Sys2Proof.Machine

open Sys2Proof.Safety

/-- The chunk of `L` lanes is all that `ABSORB` reads of the bus (20_memory.md R29). -/
theorem absorbBlock_congr {L : Nat} {d d' : Data} (h : ∀ i, i < L → lane d i = lane d' i) :
    absorbBlock L d = absorbBlock L d' := by
  have hc : chunkOf d L = chunkOf d' L := List.map_congr_left fun i hi => h i (List.mem_range.mp hi)
  funext s
  rw [absorbBlock, absorbBlock, blkEnc, blkEnc, hc]

/-- A command that does not run reads no lane. -/
theorem exec_ofFields_congr {op : Op} {len : Len} {s : State} (d d' : Data)
    (h : admission op len s.PHASE ≠ .execute) :
    exec (Instr.ofFields op len d) s = exec (Instr.ofFields op len d') s := by
  rw [exec_eq_stepCommand, exec_eq_stepCommand, op_ofFields, len_ofFields, op_ofFields, len_ofFields, stepCommand,
    stepCommand]
  cases hv : admission op len s.PHASE with
  | execute => exact absurd hv h
  | sticky => rfl
  | raises f => rfl

/-- Settles O29: `CLR` and `FINAL` drop their lanes, `ABSORB` reads its chunk, and a refusal reads the header only. -/
theorem unusedLanesAreIgnored : Obligations.UnusedLanesAreIgnored := by
  refine ⟨fun _ _ _ _ => rfl, fun _ _ _ _ => rfl, fun len d d' s h => ?absorb, fun op len d d' s h => ?refused⟩
  case absorb => rw [exec, exec, execAbsorb, execAbsorb, absorbBlock_congr h]
  case refused =>
    refine exec_ofFields_congr d d' fun hx => ?_
    have hrun : admission (Instr.ofFields op len d).op (Instr.ofFields op len d).len s.PHASE = .execute := by
      rwa [op_ofFields, len_ofFields]
    obtain ⟨hw, ha⟩ := admission_eq_execute_iff.mp hrun
    rw [op_ofFields] at ha
    rcases h with h | h
    · simp [hw] at h
    · exact h ha

theorem status_congr {s t : State} (hp : s.PHASE = t.PHASE) (he : s.ERR = t.ERR) : s.status = t.status := by
  rw [State.status, State.status, hp, he]

/-- Settles O49: the two fields of `status` are a concatenation, and the invariant leaves seven pairs of them. -/
theorem statusShowsPhaseAndErr : Obligations.StatusShowsPhaseAndErr := by
  refine ⟨fun s => ?fields, fun s t => status_congr, fun s hi => ?values⟩
  case fields => rw [State.status]; cases s.ERR <;> cases s.PHASE <;> decide
  case values =>
    have hE := hi.errIffError
    rw [State.status]
    cases hp : s.PHASE <;> cases he : s.ERR <;> simp [hp, he] at hE <;> decide

/-- What a command shows when it runs depends on its header only (41_block_absorb.md R62). -/
theorem samePublic_effectOf (op : Op) (len : Len) (d₁ d₂ : Data) {s₁ s₂ : State} (h : SamePublic s₁ s₂) :
    SamePublic (effectOf (Instr.ofFields op len d₁) s₁) (effectOf (Instr.ofFields op len d₂) s₂) := by
  obtain ⟨-, hE, -, -⟩ := h
  cases op <;> simp [SamePublic, Instr.ofFields, effectOf, hE, rspWord_header]

theorem samePublic_stepCommand (op : Op) (len : Len) (d₁ d₂ : Data) {s₁ s₂ : State} (h : SamePublic s₁ s₂) :
    SamePublic (stepCommand op len (effectOf (Instr.ofFields op len d₁)) s₁)
      (stepCommand op len (effectOf (Instr.ofFields op len d₂)) s₂) := by
  have heff := samePublic_effectOf op len d₁ d₂ h
  obtain ⟨hP, hE, -, -⟩ := h
  rw [stepCommand, stepCommand, hP, hE]
  cases admission op len s₂.PHASE with
  | execute => exact heff
  | sticky => exact ⟨hP, hE, rfl, rfl⟩
  | raises f => exact ⟨rfl, rfl, rfl, rfl⟩

/-- Every latency is at least 1 (70_reset_and_hazards.md R101). -/
theorem latency_pos (op : Op) (len : Len) (phase : Phase) : 1 ≤ latency op len phase := by
  unfold latency
  split
  · cases op <;> exact Nat.le_add_right 1 _
  · exact Nat.le_add_right 1 _
  · exact Nat.le_add_right 1 _

theorem fields_eq_of_header {w₁ w₂ : CmdWord} (h : w₁.extractLsb' 0 8 = w₂.extractLsb' 0 8) :
    wordOp w₁ = wordOp w₂ ∧ wordLen w₁ = wordLen w₂ := by
  have hn : w₁.toNat % 256 = w₂.toNat % 256 := by
    simpa [BitVec.extractLsb'_toNat] using congrArg BitVec.toNat h
  refine ⟨bits_inj ?_, BitVec.eq_of_toNat_eq ?_⟩
  · rw [wordOp_bits_toNat, wordOp_bits_toNat]
    omega
  · rw [wordLen_toNat, wordLen_toNat]
    omega

/-- Settles O28: the verdict and the latency read the header and `PHASE`; what follows shows the same by the lemmas
above. -/
theorem secretsDoNotShow : Obligations.SecretsDoNotShow := by
  intro w₁ w₂ s₁ s₂ h hw
  obtain ⟨hop, hlen⟩ := fields_eq_of_header hw
  have hx₁ : exec (decode w₁) s₁ = .next (stepCommand (wordOp w₂) (wordLen w₂)
      (effectOf (Instr.ofFields (wordOp w₂) (wordLen w₂) (wordData w₁))) s₁) := by
    rw [decode, exec_eq_stepCommand, op_ofFields, len_ofFields, hop, hlen]
  have hx₂ : exec (decode w₂) s₂ = .next (stepCommand (wordOp w₂) (wordLen w₂) (effectOf (decode w₂)) s₂) := by
    rw [exec_eq_stepCommand, op_decode, len_decode]
  have hpub := samePublic_stepCommand (wordOp w₂) (wordLen w₂) (wordData w₁) (wordData w₂) h
  have hstatus := status_congr hpub.1 hpub.2.1
  have hlat : wordLatency w₁ s₁ = wordLatency w₂ s₂ := by rw [wordLatency, wordLatency, hop, hlen, h.1]
  exact ⟨_, _, hx₁, hx₂, hpub, hstatus, hlat, latency_pos _ _ _⟩

end Sys2Proof.Machine
end

section
/-! PROOFS. Port events (70_reset_and_hazards.md R103 to R107): the step of an edge, runs over edges that change
nothing, and what any step can do to the registers and to the response port. -/

namespace Sys2Proof.Machine

open Sys2Proof.Safety

/-- Settles O15: the edge accepts the word, so the step is the decoded command. -/
theorem stepRunsAcceptedWord : Obligations.StepRunsAcceptedWord := by
  intro s w rspReady rest hi hr hc
  rw [step_of_accepts ⟨⟨rspReady, by rw [hi]; rfl⟩, hr, hc⟩, hi, List.tail_cons]

theorem portAction_of_edge {s : State} {v r : Bool} {w : CmdWord} {rest : List PortIn}
    (h : s.inputs = .edge v w r :: rest) : portAction s = edgeAction v w r { s with inputs := rest } := by
  rw [portAction, h]

theorem step_of_edge_taken {s : State} {v : Bool} {w : CmdWord} {rest : List PortIn} {q : RspWord}
    (hi : s.inputs = .edge v w true :: rest) (hq : s.rsp = some q) :
    step s = .next { s with rsp := none, cmdReady := true, inputs := rest } := by
  simp [step, portAction_of_edge hi, edgeAction, hq, takeResponse]

theorem step_of_edge_waits {s : State} {v : Bool} {w : CmdWord} {rest : List PortIn} {q : RspWord}
    (hi : s.inputs = .edge v w false :: rest) (hq : s.rsp = some q) : step s = .next { s with inputs := rest } := by
  simp [step, portAction_of_edge hi, edgeAction, hq]

theorem step_of_edge_idle {s : State} {r : Bool} {w : CmdWord} {rest : List PortIn}
    (hi : s.inputs = .edge false w r :: rest) (hq : s.rsp = none) (hc : s.cmdReady = true) :
    step s = .next { s with inputs := rest } := by
  simp [step, portAction_of_edge hi, edgeAction, hq, hc]

theorem step_of_edge_unready {s : State} {v r : Bool} {w : CmdWord} {rest : List PortIn}
    (hi : s.inputs = .edge v w r :: rest) (hq : s.rsp = none) (hc : s.cmdReady = false) :
    step s = .next { s with inputs := rest, cmdReady := true } := by
  simp [step, portAction_of_edge hi, edgeAction, hq, hc]

/-- Settles O16: the edge's three cases without an accepted word. -/
theorem responseHandshake : Obligations.ResponseHandshake := by
  refine fun s v r w rest hi => ⟨fun q hq => ⟨?taken, ?waits⟩, ?idle, step_of_edge_unready hi⟩
  case taken =>
    rintro rfl
    exact step_of_edge_taken hi hq
  case waits =>
    rintro rfl
    exact step_of_edge_waits hi hq
  case idle =>
    rintro hq hc rfl
    exact step_of_edge_idle hi hq hc

/-- Settles O17: an edge with `rsp_ready = 0` is used up, and the response is still pending. -/
theorem untakenResponseBlocksEngine : Obligations.UntakenResponseBlocksEngine := by
  intro edges s q hq
  induction edges with
  | nil => exact run_zero _
  | cons e es ih =>
    have hs : step { s with inputs := .edge e.1 e.2 false :: es.map fun e => .edge e.1 e.2 false } =
        .next { s with inputs := es.map fun e => .edge e.1 e.2 false } := step_of_edge_waits rfl hq
    exact (run_succ es.length hs).trans ih

/-- Settles O18: an edge with `cmd_valid = 0` is used up, and the engine is still ready. -/
theorem idleEdgesChangeNothing : Obligations.IdleEdgesChangeNothing := by
  intro edges s rest hq hc
  induction edges with
  | nil => exact run_zero _
  | cons e es ih =>
    have hs : step { s with inputs := .edge false e.1 e.2 :: (es.map (fun e => .edge false e.1 e.2) ++ rest) } =
        .next { s with inputs := es.map (fun e => .edge false e.1 e.2) ++ rest } := step_of_edge_idle rfl hq hc
    exact (run_succ es.length hs).trans ih

/-- Settles O22: a reset, an accepted word and an idle edge all have a next state. -/
theorem stepStopsOnlyWithoutReset : Obligations.StepStopsOnlyWithoutReset := by
  refine fun s => ⟨step_of_neverReset, fun hn => ?_⟩
  by_cases hr : Resets s
  · obtain ⟨rest, hs⟩ := step_of_resets hr
    exact ⟨_, hs⟩
  by_cases ha : ∃ w, Accepts s w
  · obtain ⟨w, hw⟩ := ha
    rw [step_of_accepts hw]
    exact exec_isNext _ _
  · obtain ⟨q, -, hs | hs⟩ | ⟨-, hs⟩ := step_of_edge hr hn (not_exists.mp ha)
    all_goals exact ⟨_, hs⟩

/-- A step does a reset, runs an accepted word, or leaves the registers and shows no new response. -/
theorem step_registers {s t : State} (h : step s = .next t) :
    (Resets s ∧ ∃ rest, t = resetWith rest) ∨
    (∃ w, Accepts s w ∧ exec (decode w) { s with inputs := s.inputs.tail } = .next t) ∨
    ((∀ w, ¬Accepts s w) ∧ ¬Resets s ∧ SameRegisters s t ∧ (t.rsp = s.rsp ∨ t.rsp = none)) := by
  obtain hr | hw | ⟨ha, hr, ⟨-, rfl | rfl⟩ | ⟨-, rfl⟩⟩ := step_cases h
  · exact .inl hr
  · exact .inr (.inl hw)
  · exact .inr (.inr ⟨ha, hr, ⟨rfl, rfl, rfl, rfl, rfl⟩, .inr rfl⟩)
  · exact .inr (.inr ⟨ha, hr, ⟨rfl, rfl, rfl, rfl, rfl⟩, .inl rfl⟩)
  · exact .inr (.inr ⟨ha, hr, ⟨rfl, rfl, rfl, rfl, rfl⟩, .inl rfl⟩)

/-- Settles O26: the last of a step's three cases. -/
theorem registersChangeOnlyByCommandOrReset : Obligations.RegistersChangeOnlyByCommandOrReset := by
  intro s t h ha hr
  obtain ⟨hr', -⟩ | ⟨w, hw, -⟩ | ⟨-, -, hsame, -⟩ := step_registers h
  · exact absurd hr' hr
  · exact absurd hw (ha w)
  · exact hsame

/-! ## What a command does to the phase and to `TAGV` -/

/-- A computation begins with an `LDKEY` (70_reset_and_hazards.md R104). -/
theorem exec_begins {i : Instr} {s t : State} (h : exec i s = .next t) (hs : s.PHASE = .idle ∨ s.PHASE = .error)
    (ht : t.PHASE = .keyed ∨ t.PHASE = .last) :
    s.PHASE = .idle ∧ t.PHASE = .keyed ∧ ∃ data, i = .ldkey 32 data := by
  obtain ⟨hx, rfl⟩ := eq_effectOf_of_ne_error h (by rcases ht with ht | ht <;> simp [ht])
  obtain ⟨hw, ha⟩ := admission_eq_execute_iff.mp hx
  cases i with
  | clr len data => rcases ht with ht | ht <;> cases ht
  | ldkey len data =>
    exact ⟨admits_ldkey_iff.mp ha, rfl, data, by rw [eq_of_toNat_beq (b := 32) hw]⟩
  | absorb len data =>
    have hp := admits_absorb_iff.mp ha
    rcases hs with hs | hs <;> cases hs.symm.trans hp
  | final len data => rcases ht with ht | ht <;> cases ht

/-- A computation ends with a `CLR`, a `FINAL` or a fault, each of which zeroises (70_reset_and_hazards.md R104). -/
theorem exec_ends {i : Instr} {s t : State} (h : exec i s = .next t) (hs : s.PHASE = .keyed ∨ s.PHASE = .last)
    (ht : t.PHASE = .idle ∨ t.PHASE = .error) :
    (t.R = 0 ∧ t.S = 0 ∧ t.ACC = 0) ∧
      ((∃ data, i = .clr 0 data ∧ t.PHASE = .idle) ∨ (∃ data, i = .final 0 data ∧ t.PHASE = .idle) ∨
       (t.PHASE = .error ∧ t.ERR ≠ .noFault ∧ t.rsp = some (codeWord t.ERR))) := by
  obtain ⟨hx, rfl⟩ | ⟨hx, -⟩ | ⟨f, hf, rfl⟩ := exec_cases h
  · obtain ⟨hw, -⟩ := admission_eq_execute_iff.mp hx
    cases i with
    | clr len data => exact ⟨⟨rfl, rfl, rfl⟩, .inl ⟨data, by rw [eq_of_toNat_beq (b := 0) hw], rfl⟩⟩
    | ldkey len data => rcases ht with ht | ht <;> cases ht
    | absorb len data =>
      rcases absorbBlock_PHASE_cases len.toNat data s with hp | hp <;> rcases ht with ht | ht <;>
        cases hp.symm.trans ht
    | final len data => exact ⟨⟨rfl, rfl, rfl⟩, .inr (.inl ⟨data, by rw [eq_of_toNat_beq (b := 0) hw], rfl⟩)⟩
  · have hp := admission_eq_sticky hx
    rcases hs with hs | hs <;> simp [hs] at hp
  · obtain ⟨-, hne, -⟩ := admission_eq_raises hf
    exact ⟨⟨rfl, rfl, rfl⟩, .inr (.inr ⟨rfl, hne, by rw [raise_rsp, rspWord_eq_codeWord, raise_ERR]⟩)⟩

/-- `LAST` is entered by a short `ABSORB` (10_state.md R21 item 5). -/
theorem exec_into_last {i : Instr} {s t : State} (h : exec i s = .next t) (ht : t.PHASE = .last) :
    s.PHASE = .keyed ∧ ∃ len data, i = .absorb len data ∧ 1 ≤ len.toNat ∧ len.toNat ≤ 15 := by
  obtain ⟨hx, rfl⟩ := eq_effectOf_of_ne_error h (by simp [ht])
  obtain ⟨hw, ha⟩ := admission_eq_execute_iff.mp hx
  cases i with
  | absorb len data =>
    have hlen : len.toNat ≠ 16 := fun hl => by simp [effectOf, hl] at ht
    simp only [Instr.wellFormed, Bool.and_eq_true, decide_eq_true_eq] at hw
    exact ⟨admits_absorb_iff.mp ha, len, data, rfl, hw.1, by omega⟩
  | _ => cases ht

/-- A tag comes from a `FINAL` that ran (10_state.md R8). -/
theorem exec_tag {i : Instr} {s t : State} {q : RspWord} (h : exec i s = .next t) (hq : t.rsp = some q)
    (htag : q.getLsbD 3 = true) :
    t = finish s ∧ (s.PHASE = .keyed ∨ s.PHASE = .last) ∧ ∃ data, i = .final 0 data := by
  have hcode (c : ErrCode) : some (rspWord c false 0) ≠ some q := by
    intro hc
    rw [← Option.some.inj hc, rspWord_tagv] at htag
    cases htag
  obtain ⟨hx, rfl⟩ | ⟨-, rfl⟩ | ⟨f, -, rfl⟩ := exec_cases h
  · obtain ⟨hw, ha⟩ := admission_eq_execute_iff.mp hx
    cases i with
    | final len data => exact ⟨rfl, admits_final_iff.mp ha, data, by rw [eq_of_toNat_beq (b := 0) hw]⟩
    | _ => exact absurd hq (hcode _)
  · exact absurd hq (hcode _)
  · exact absurd hq (hcode _)

/-- Settles O20: a step that is no command and no reset leaves `PHASE`, and a reset leaves the registers zero. -/
theorem computationBeginsAndEnds : Obligations.ComputationBeginsAndEnds := by
  refine ⟨fun s t h hs ht => ?begins, fun s t h hs ht => ?ends⟩
  case begins =>
    obtain ⟨-, rest, rfl⟩ | ⟨w, hw, hx⟩ | ⟨-, -, ⟨-, -, -, hp, -⟩, -⟩ := step_registers h
    · simp at ht
    · obtain ⟨hp, htp, data, hd⟩ := exec_begins hx hs ht
      exact ⟨hp, htp, w, data, hw, hd⟩
    · rw [← hp] at ht
      rcases hs with hs | hs <;> simp [hs] at ht
  case ends =>
    obtain ⟨hr, rest, rfl⟩ | ⟨w, hw, hx⟩ | ⟨-, -, ⟨-, -, -, hp, -⟩, -⟩ := step_registers h
    · exact ⟨rfl, rfl, rfl, .inl hr⟩
    · obtain ⟨⟨hR, hS, hACC⟩, hend⟩ := exec_ends hx hs ht
      exact ⟨hR, hS, hACC, .inr ⟨w, hw, hend⟩⟩
    · rw [← hp] at ht
      rcases hs with hs | hs <;> simp [hs] at ht

/-- Settles O27: a step that is no command shows no new response. -/
theorem tagOnlyFromExecutedFinal : Obligations.TagOnlyFromExecutedFinal := by
  intro s t q h hq htag
  obtain ⟨-, rest, rfl⟩ | ⟨w, hw, hx⟩ | ⟨-, -, -, hrsp | hrsp⟩ := step_registers h
  · cases hq
  · obtain ⟨-, hp, data, hd⟩ := exec_tag hx hq htag
    exact .inr ⟨hp, w, data, hw, hd⟩
  · exact .inl (hrsp ▸ hq)
  · rw [hrsp] at hq
    cases hq

theorem next_inj {s t : State} (h : (.next s : Host.Outcome State Fault Refusal) = .next t) : s = t :=
  Host.Outcome.next.inj h

theorem step_into_last {s t : State} (h : step s = .next t) (hs : s.PHASE ≠ .last) (ht : t.PHASE = .last) :
    ∃ w len data, Accepts s w ∧ decode w = .absorb len data ∧ 1 ≤ len.toNat ∧ len.toNat ≤ 15 ∧ s.PHASE = .keyed := by
  obtain ⟨-, rest, rfl⟩ | ⟨w, hw, hx⟩ | ⟨-, -, ⟨-, -, -, hp, -⟩, -⟩ := step_registers h
  · cases ht
  · obtain ⟨hp, len, data, hd, h1, h15⟩ := exec_into_last hx ht
    exact ⟨w, len, data, hw, hd, h1, h15, hp⟩
  · exact absurd (hp.trans ht) hs

/-- Settles O25, by induction on the run: its last step enters `LAST`, or the run before it already ended there. -/
theorem lastMeansShortAbsorbSinceLdkey : Obligations.LastMeansShortAbsorbSinceLdkey := by
  intro n s₀ t hs₀ hrun ht
  induction n generalizing t with
  | zero =>
    exact absurd (next_inj hrun ▸ ht) hs₀
  | succ n ih =>
    obtain ⟨v, hv, hstep⟩ := run_succ_last hrun
    have hend (u : State) (hu : Host.Core.run core (n + 1) s₀ = .next u) : u.PHASE = .last :=
      next_inj (hrun.symm.trans hu) ▸ ht
    by_cases hlast : v.PHASE = .last
    · obtain ⟨k, s, w, len, data, hk, hs, hw, hd, h1, h15, hp, hstay⟩ := ih v hv hlast
      refine ⟨k, s, w, len, data, by omega, hs, hw, hd, h1, h15, hp, fun j u hkj hjn hu => ?_⟩
      rcases Nat.lt_or_eq_of_le hjn with hjn | rfl
      · exact hstay j u hkj (by omega) hu
      · exact hend u hu
    · obtain ⟨w, len, data, hw, hd, h1, h15, hp⟩ := step_into_last hstep hlast ht
      refine ⟨n, v, w, len, data, by omega, hv, hw, hd, h1, h15, hp, fun j u hkj hjn hu => ?_⟩
      obtain rfl : j = n + 1 := by omega
      exact hend u hu

end Sys2Proof.Machine
end

section
/-! PROOFS. Transactions (70_reset_and_hazards.md R103, R104) and platforms (60_exceptions.md R95). -/

namespace Sys2Proof.Machine

open Sys2Proof.Safety

/-- A transaction is the decoded command on a ready engine, and its response. -/
theorem transact_eq_some (w : CmdWord) (s : State) :
    ∃ t q, exec (decode w) { s with rsp := none, cmdReady := true } = .next t ∧ t.rsp = some q ∧ ResponseShape q ∧
      transact w s = some (q, { t with rsp := none, cmdReady := true }) := by
  obtain ⟨t, q, hx, hq, hshape, -⟩ := everyCommandIsAnswered (decode w) { s with rsp := none, cmdReady := true }
  exact ⟨t, q, hx, hq, hshape, transact_of_exec hx hq⟩

/-- Settles O19: each word's transaction ends with no command outstanding; one with a tag ran `FINAL`. -/
theorem oneResponsePerCommand : Obligations.OneResponsePerCommand := by
  refine ⟨fun ws => ?served, fun w s t q h htag => ?clean⟩
  case served =>
    induction ws with
    | nil => exact fun s hs => ⟨[], s, rfl, rfl, hs, by simp⟩
    | cons w ws ih =>
      intro s _
      obtain ⟨u, q, -, -, hshape, htr⟩ := transact_eq_some w s
      obtain ⟨qs, t, hserve, hlen, hover, hall⟩ := ih { u with rsp := none, cmdReady := true } rfl
      exact ⟨q :: qs, t, serve_cons htr hserve, congrArg (· + 1) hlen, hover, List.forall_mem_cons.mpr ⟨hshape, hall⟩⟩
  case clean =>
    obtain ⟨u, q', hx, hq, -, htr⟩ := transact_eq_some w s
    rw [htr, Option.some.injEq, Prod.mk.injEq] at h
    obtain ⟨rfl, rfl⟩ := h
    obtain ⟨rfl, -⟩ := exec_tag hx hq htag
    exact ⟨⟨rfl, rfl⟩, rfl, rfl, rfl⟩

theorem stepAt_eq_some {i : Nat} {p p' : Platform} (h : p.stepAt i = some p') :
    ∃ s t, p[i]? = some s ∧ step s = .next t ∧ p' = p.set i t := by
  unfold Platform.stepAt at h
  split at h
  · split at h
    · exact ⟨_, _, ‹_›, ‹_›, (Option.some.inj h).symm⟩
    · cases h
    · cases h
  · cases h

/-- Settles O47, by induction on the schedule: its first step moves the chosen engine and no other. -/
theorem instancesShareNothing : Obligations.InstancesShareNothing := by
  intro schedule
  induction schedule with
  | nil =>
    intro p p' h
    obtain rfl := Option.some.inj h
    exact ⟨rfl, fun i s hs => ⟨s, hs, rfl⟩⟩
  | cons i is ih =>
    intro p p' h
    rw [Platform.run] at h
    split at h
    · rename_i p₁ hp₁
      obtain ⟨s, t, hs, hst, rfl⟩ := stepAt_eq_some hp₁
      obtain ⟨hlen, hrun⟩ := ih _ _ h
      refine ⟨by rw [hlen, List.length_set], fun j u hu => ?_⟩
      by_cases hij : i = j
      · subst hij
        obtain rfl : s = u := Option.some.inj (hs.symm.trans hu)
        obtain ⟨hi, -⟩ := List.getElem?_eq_some_iff.mp hs
        obtain ⟨v, hv, hrv⟩ := hrun i t (List.getElem?_set_self hi)
        exact ⟨v, hv, by rw [List.count_cons_self]; exact (run_succ _ hst).trans hrv⟩
      · obtain ⟨v, hv, hrv⟩ := hrun j u (by rwa [List.getElem?_set_ne hij])
        exact ⟨v, hv, by rwa [List.count_cons_of_ne hij]⟩
    · cases h

end Sys2Proof.Machine
end

section
/-! PROOFS. The arithmetic of `ABSORB` (41_block_absorb.md R58, R59): the reduction without division, and the bounds
under which it is used. -/

namespace Sys2Proof.Machine

open Sys2Proof.Safety

/-- One fold of `REDUCE`: the bits from 130 on come back at the bottom, times 5 (41_block_absorb.md R59). -/
def foldHigh (x : Nat) : Nat := x % 2 ^ 130 + 5 * (x / 2 ^ 130)

theorem reduce_eq (x : Nat) :
    reduce x =
      if (foldHigh (foldHigh x) + 5) / 2 ^ 130 = 1 then foldHigh (foldHigh x) + 5 - 2 ^ 130
      else foldHigh (foldHigh x) := rfl

/-- A fold keeps the residue, since `2^130 = P + 5`. -/
theorem foldHigh_modEq (x : Nat) : foldHigh x ≡ x [MOD P] := by
  have h : x = foldHigh x + P * (x / 2 ^ 130) := by rw [foldHigh, P_eq]; omega
  conv_rhs => rw [h]
  exact (Nat.add_mul_mod_self_left _ _ _).symm

theorem foldHigh_foldHigh_lt {x : Nat} (h : x < 2 ^ 255) : foldHigh (foldHigh x) < 2 ^ 130 := by
  rw [foldHigh, foldHigh]
  omega

/-- The last step of `REDUCE` subtracts `P` where that is possible (41_block_absorb.md R59). -/
theorem ite_sub_eq_mod {x : Nat} (h : x < 2 ^ 130) :
    (if (x + 5) / 2 ^ 130 = 1 then x + 5 - 2 ^ 130 else x) = x % P := by
  rw [P_eq]
  split_ifs <;> omega

theorem reduce_eq_mod {x : Nat} (h : x < 2 ^ 255) : reduce x = x % P := by
  rw [reduce_eq, ite_sub_eq_mod (foldHigh_foldHigh_lt h)]
  exact (foldHigh_modEq _).trans (foldHigh_modEq x)

/-- Settles O34: two folds keep the residue and leave fewer than 131 bits. -/
theorem reduceIsModP : Obligations.ReduceIsModP := fun _ => reduce_eq_mod

theorem lt_of_clamped {r : BitVec 128} (h : r &&& ~~~clampMask = 0) : r.toNat < 2 ^ 124 := by
  have hr : clamp r = r := by
    apply BitVec.eq_of_getLsbD_eq
    intro i hi
    have hbit : (r &&& ~~~clampMask).getLsbD i = false := by rw [h]; exact BitVec.getLsbD_zero
    rw [BitVec.getLsbD_and, BitVec.getLsbD_not, decide_eq_true hi, Bool.true_and] at hbit
    rw [clamp, BitVec.getLsbD_and]
    cases hm : clampMask.getLsbD i <;> simp_all
  have hle := clamp_le r
  rw [hr] at hle
  omega

theorem blkEnc_lt (data : Data) {L : Nat} (h1 : 1 ≤ L) (h16 : L ≤ 16) : blkEnc data L < 2 ^ 129 := by
  have hlen : (chunkOf data L).length = L := lanes_length data L
  exact (blockInt_bounds (c := chunkOf data L) (by omega) (by omega)).2

/-- Settles O35: a clamped `R` is below `2^124`, a chunk's integer below `2^129`, and so the product below `2^255`. -/
theorem absorbIntermediatesAreBounded : Obligations.AbsorbIntermediatesAreBounded := by
  intro s data L hi h1 h16
  have hn := blkEnc_lt data h1 h16
  have hr := lt_of_clamped hi.clamped
  have hACC := hi.canonical
  have hprod : s.R.toNat * (s.ACC.toNat + blkEnc data L) < 2 ^ 255 := by
    calc s.R.toNat * (s.ACC.toNat + blkEnc data L) ≤ 2 ^ 124 * (2 ^ 130 + 2 ^ 129) := by
          apply Nat.mul_le_mul <;> omega
      _ < 2 ^ 255 := by decide
  exact ⟨by omega, by omega, hr, hprod, reduce_eq_mod hprod⟩

end Sys2Proof.Machine
end

section
/-! PROOFS. The tag of a message (44_compute_tag.md R74, R76): the chunks peeled from the front, the fold in closed
form, and how the tag depends on each part of the key. -/

namespace Sys2Proof.Machine

/-! ## Chunks from the front -/

theorem chunks_nil : chunks [] = [] := rfl

theorem chunks_append {c : List Byte} (hc : c.length = 16) (rest : List Byte) :
    chunks (c ++ rest) = c :: chunks rest := by
  have hcount : chunkCount (c ++ rest).length = chunkCount rest.length + 1 := by
    rw [chunkCount, chunkCount, List.length_append, hc]
    omega
  rw [chunks, chunks, hcount, List.range_succ_eq_map, List.map_cons, List.map_map]
  congr 1
  · rw [Nat.mul_zero, List.drop_zero, List.take_left' hc]
  · refine List.map_congr_left fun i _ => ?_
    have hi : 16 * (i + 1) = c.length + 16 * i := by omega
    rw [Function.comp_apply, Nat.succ_eq_add_one, hi, ← List.drop_drop, List.drop_left]

theorem chunks_of_short {msg : List Byte} (h1 : 1 ≤ msg.length) (h16 : msg.length ≤ 16) : chunks msg = [msg] := by
  have hcount : chunkCount msg.length = 1 := by rw [chunkCount]; omega
  simp [chunks, hcount, List.take_of_length_le h16]

/-- A message is empty, one short chunk, or a full chunk before a message (44_compute_tag.md R70). -/
theorem chunk_induction {motive : List Byte → Prop} (nil : motive [])
    (short : ∀ c : List Byte, 1 ≤ c.length → c.length < 16 → motive c)
    (full : ∀ c rest : List Byte, c.length = 16 → motive rest → motive (c ++ rest)) (msg : List Byte) : motive msg := by
  induction hn : msg.length using Nat.strong_induction_on generalizing msg with
  | h n ih =>
    by_cases h0 : msg.length = 0
    · rw [List.length_eq_zero_iff.mp h0]
      exact nil
    by_cases h16 : msg.length < 16
    · exact short msg (by omega) h16
    · have hrest : (msg.drop 16).length < n := by rw [List.length_drop]; omega
      rw [← List.take_append_drop 16 msg]
      exact full _ _ (List.length_take_of_le (by omega)) (ih _ hrest _ rfl)

/-! ## The fold -/

theorem foldChunk_lt (r a : Nat) (c : List Byte) : foldChunk r a c < P := macstep_lt _ _ _

theorem foldl_foldChunk_lt (r : Nat) {a : Nat} (ha : a < P) (cs : List (List Byte)) : cs.foldl (foldChunk r) a < P := by
  induction cs generalizing a with
  | nil => exact ha
  | cons c cs ih => exact ih (foldChunk_lt r a c)

/-- The message's polynomial at `r`: chunk `i + 1` of `q` is weighted by `r ^ (q - i)` (44_compute_tag.md R74). -/
def polyAt (r : Nat) (cs : List (List Byte)) : Nat :=
  ((List.range cs.length).map fun i => blockInt (cs.getD i []) * r ^ (cs.length - i)).sum

theorem polyAt_cons (r : Nat) (c : List Byte) (cs : List (List Byte)) :
    polyAt r (c :: cs) = blockInt c * r ^ (cs.length + 1) + polyAt r cs := by
  simp [polyAt, List.range_succ_eq_map, Function.comp_def]

/-- The fold is the polynomial's Horner scheme (44_compute_tag.md R74). -/
theorem foldl_foldChunk_modEq (r a : Nat) (cs : List (List Byte)) :
    cs.foldl (foldChunk r) a ≡ a * r ^ cs.length + polyAt r cs [MOD P] := by
  induction cs generalizing a with
  | nil => simpa [polyAt] using Nat.ModEq.refl a
  | cons c cs ih =>
    have hstep : foldChunk r a c ≡ r * (a + blockInt c) [MOD P] := Nat.mod_modEq _ _
    rw [List.foldl_cons, polyAt_cons, List.length_cons]
    calc cs.foldl (foldChunk r) (foldChunk r a c)
        ≡ foldChunk r a c * r ^ cs.length + polyAt r cs [MOD P] := ih _
      _ ≡ r * (a + blockInt c) * r ^ cs.length + polyAt r cs [MOD P] := (hstep.mul_right _).add_right _
      _ = a * r ^ (cs.length + 1) + (blockInt c * r ^ (cs.length + 1) + polyAt r cs) := by ring

/-- The fold from 0 is below `P`, so it is the polynomial's residue. -/
theorem foldl_foldChunk_zero_eq (r : Nat) (cs : List (List Byte)) :
    cs.foldl (foldChunk r) 0 = polyAt r cs % P := by
  have hpoly := foldl_foldChunk_modEq r 0 cs
  rwa [Nat.zero_mul, Nat.zero_add, Nat.ModEq, Nat.mod_eq_of_lt (foldl_foldChunk_lt r P_pos cs)] at hpoly

theorem keyS_of_length {key : List Byte} (h : key.length = 32) : keyS key = leDec (key.drop 16) := by
  rw [keyS, List.take_of_length_le (by rw [List.length_drop]; omega)]

theorem keyS_lt (key : List Byte) : keyS key < 2 ^ 128 := by
  have hlen : ((key.drop 16).take 16).length ≤ 16 := List.length_take_le 16 _
  exact Nat.lt_of_lt_of_le (leDec_lt _) (Nat.pow_le_pow_right (by decide) (by omega))

/-- The key's second half comes back from its number (20_memory.md R25). -/
theorem leEnc_keyS {key : List Byte} (h : key.length = 32) : leEnc 16 (keyS key) = key.drop 16 := by
  have hlen : (key.drop 16).length = 16 := by rw [List.length_drop, h]
  have hback := leEnc_leDec (key.drop 16)
  rwa [hlen, ← keyS_of_length h] at hback

/-- Two tags are equal exactly when their numbers are (42_finalize.md R65). -/
theorem leEnc_tagval_inj {a s a' s' : Nat} :
    leEnc 16 (tagval a s) = leEnc 16 (tagval a' s') ↔ (a + s) % 2 ^ 128 = (a' + s') % 2 ^ 128 := by
  refine ⟨fun h => ?_, fun h => by rw [tagval, tagval, h]⟩
  have hdec := congrArg leDec h
  rw [leDec_leEnc, leDec_leEnc] at hdec
  rwa [Nat.mod_eq_of_lt (tagval_lt a s), Nat.mod_eq_of_lt (tagval_lt a' s')] at hdec

theorem leEnc_tagval_left_inj {a a' s : Nat} :
    leEnc 16 (tagval a s) = leEnc 16 (tagval a' s) ↔ a % 2 ^ 128 = a' % 2 ^ 128 :=
  leEnc_tagval_inj.trans ⟨Nat.ModEq.add_right_cancel' s, Nat.ModEq.add_right s⟩

theorem leEnc_tagval_right_inj {a s s' : Nat} :
    leEnc 16 (tagval a s) = leEnc 16 (tagval a s') ↔ s % 2 ^ 128 = s' % 2 ^ 128 :=
  leEnc_tagval_inj.trans ⟨Nat.ModEq.add_left_cancel' a, Nat.ModEq.add_left a⟩

theorem leEnc_tagval_zero {key : List Byte} (h : key.length = 32) : leEnc 16 (tagval 0 (keyS key)) = key.drop 16 := by
  rw [tagval, Nat.zero_add, Nat.mod_eq_of_lt (keyS_lt key), leEnc_keyS h]

/-- Settles O38: the fold is the residue of the message's polynomial. -/
theorem tagIsPolynomialInR : Obligations.TagIsPolynomialInR := by
  intro msg key hk
  have hlen : (chunks msg).length = chunkCount msg.length := chunks_length msg
  rw [computeTag_of_length hk, foldl_foldChunk_zero_eq, polyAt, hlen, keyS_of_length hk]
  rfl

/-- Settles O39: the encoder gives 16 bytes, and the empty fold is 0. -/
theorem tagLengthAndEmptyMessage : Obligations.TagLengthAndEmptyMessage := by
  refine ⟨fun msg key hk => ⟨_, computeTag_of_length hk, leEnc_length _ _⟩, fun key hk => ?empty,
    fun msg key hk => if_neg hk⟩
  case empty => rw [computeTag_of_length hk, chunks_nil, List.foldl_nil, leEnc_tagval_zero hk]

/-- Settles O40: both keys have the same clamped first half. -/
theorem clampedKeyBitsDoNotMatter : Obligations.ClampedKeyBitsDoNotMatter := by
  intro msg k k' hk hk' hhigh hlow
  have hR : keyR k = keyR k' := by
    rw [keyR, keyR, clamp_leDec_toNat (List.length_take_of_le (by omega)),
      clamp_leDec_toNat (List.length_take_of_le (by omega))]
    exact hlow
  have hS : keyS k = keyS k' := by rw [keyS, keyS, hhigh]
  rw [computeTag_of_length hk, computeTag_of_length hk', hR, hS]

/-- Settles O41: the accumulators are equal, and adding different numbers below `2^128` to one gives different tags. -/
theorem secondKeyHalfAlwaysMatters : Obligations.SecondKeyHalfAlwaysMatters := by
  intro msg k k' hk hk' hlow hne htag
  have hR : keyR k = keyR k' := by rw [keyR, keyR, hlow]
  rw [computeTag_of_length hk, computeTag_of_length hk', hR, Option.some.injEq, leEnc_tagval_right_inj,
    Nat.mod_eq_of_lt (keyS_lt k), Nat.mod_eq_of_lt (keyS_lt k')] at htag
  have hhigh : k.drop 16 = k'.drop 16 := by rw [← leEnc_keyS hk, ← leEnc_keyS hk', htag]
  exact hne (by rw [← List.take_append_drop 16 k, ← List.take_append_drop 16 k', hlow, hhigh])

/-- Settles O42: the chunks are the message and the byte, and the same addend goes to both accumulators. -/
theorem blockBoundaryTagsEqualIff : Obligations.BlockBoundaryTagsEqualIff := by
  intro msg key b hm hk
  have hone : chunks msg = [msg] := chunks_of_short (by omega) (by omega)
  have htwo : chunks (msg ++ [b]) = [msg, [b]] := by
    rw [chunks_append hm, chunks_of_short (by simp) (by simp)]
  have hmsg : blockInt msg = leDec msg + 2 ^ 128 := by simp only [blockInt, hm, Nat.reduceMul]
  have hb : blockInt [b] = b.toNat + 2 ^ 8 := by simp [blockInt, leDec]
  rw [computeTag_of_length hk, computeTag_of_length hk, hone, htwo, Option.some.injEq, leEnc_tagval_left_inj]
  simp only [List.foldl_cons, List.foldl_nil, foldChunk]
  rw [hmsg, hb]

theorem foldl_foldChunk_of_zero (cs : List (List Byte)) : cs.foldl (foldChunk 0) 0 = 0 := by
  induction cs with
  | nil => rfl
  | cons c cs ih => rwa [List.foldl_cons, foldChunk, macstep, Nat.zero_mul, Nat.zero_mod]

/-- Settles O43: a product with 0 leaves the accumulator at 0. -/
theorem zeroMultiplierTagIsSecondHalf : Obligations.ZeroMultiplierTagIsSecondHalf := by
  intro msg key hk hr
  rw [computeTag_of_length hk, hr, foldl_foldChunk_of_zero, leEnc_tagval_zero hk]

end Sys2Proof.Machine
end

section
/-! PROOFS. The commands a host assembles (30_encoding.md R45, R46) and `MAC` on an engine (44_compute_tag.md R73, R74,
70_reset_and_hazards.md R101): one transaction of each command, then an induction over the chunks. -/

namespace Sys2Proof.Machine

open Sys2Proof.Safety

/-! ## Commands as a host writes them -/

theorem ldkeyOf_of_length {key : List Byte} (h : key.length = 32) : ldkeyOf key = .ldkey 32 (busOfBytes key) := by
  rw [ldkeyOf, lenOf_eq_32_iff.mpr h]

theorem keyLow_busOfBytes {key : List Byte} (h : key.length = 32) : keyLow (busOfBytes key) = key.take 16 := by
  have hlanes := lanes_busOfBytes key (by omega)
  rw [h] at hlanes
  rw [keyLow, hlanes]

theorem keyHigh_busOfBytes {key : List Byte} (h : key.length = 32) : keyHigh (busOfBytes key) = key.drop 16 := by
  have hlanes := lanes_busOfBytes key (by omega)
  rw [h] at hlanes
  rw [keyHigh, hlanes]

theorem blkEnc_busOfBytes {c : List Byte} (h : c.length ≤ 32) : blkEnc (busOfBytes c) c.length = blockInt c := by
  rw [blkEnc, chunkOf, lanes_busOfBytes c h]

theorem lenOf_toNat_of_le {n : Nat} (h : n ≤ 63) : (lenOf n).toNat = n := by
  rw [lenOf_toNat, Nat.min_eq_left h]

/-- The lanes above the bytes written are zero (30_encoding.md R45). -/
theorem lanes_busOfBytes_padded {bs : List Byte} (h : bs.length ≤ 32) :
    lanes (busOfBytes bs) 32 = bs ++ List.replicate (32 - bs.length) 0 := by
  have hlt : leDec bs < 2 ^ 256 := Nat.lt_of_lt_of_le (leDec_lt bs) (Nat.pow_le_pow_right (by decide) (by omega))
  apply leDec_inj
  · rw [lanes_length, List.length_append, List.length_replicate]
    omega
  · rw [leDec_lanes, leDec_append, leDec_replicate_zero, Nat.mul_zero, Nat.add_zero, busOfBytes, BitVec.toNat_ofNat,
      Nat.mod_mod, Nat.mod_eq_of_lt hlt]

/-- Settles O48: the assembled word is the command's encoding, and the bytes come back from the bus. -/
theorem assembledLanesAreTheBytesWritten : Obligations.AssembledLanesAreTheBytesWritten := by
  refine ⟨fun key hk => ?ldkey, fun chunk h1 h16 => ?absorb⟩
  case ldkey =>
    have hlanes := lanes_busOfBytes key (by omega)
    rw [hk] at hlanes
    exact ⟨_, busOfBytes key, if_pos hk, by rw [decode_encode, ldkeyOf_of_length hk], hlanes⟩
  case absorb =>
    exact ⟨_, lenOf chunk.length, busOfBytes chunk, if_pos ⟨h1, h16⟩, decode_encode _,
      lenOf_toNat_of_le (by omega), lanes_busOfBytes_padded (by omega)⟩

/-! ## One transaction of each command -/

/-- The host offers the word once the response before it is taken, and takes the word's own. -/
theorem transact_encode {i : Instr} {s t : State} {q : RspWord} (h : exec i (takeResponse s) = .next t)
    (hq : t.rsp = some q) : transact (encode i) s = some (q, takeResponse t) :=
  transact_of_exec (by rwa [decode_encode]) hq

/-- The engine with a key loaded and nothing absorbed (40_key_load_clamp.md R53). -/
def keyLoaded (key : List Byte) (s : State) : State :=
  { s with
    R := clamp (BitVec.ofNat 128 (leDec (key.take 16)))
    S := BitVec.ofNat 128 (leDec (key.drop 16))
    ACC := 0, PHASE := .keyed }

/-- The engine with one chunk more absorbed (41_block_absorb.md R60). -/
def chunkFolded (c : List Byte) (s : State) : State :=
  { s with
    ACC := BitVec.ofNat 130 (foldChunk s.R.toNat s.ACC.toNat c)
    PHASE := if c.length = 16 then .keyed else .last }

/-- The engine after `FINAL` (42_finalize.md R66). -/
def wipedIdle (s : State) : State := { s with R := 0, S := 0, ACC := 0, PHASE := .idle }

theorem transact_ldkeyOf {key : List Byte} {s : State} (hk : key.length = 32) (hs : s.PHASE = .idle) :
    transact (encode (ldkeyOf key)) s = some (0#136, takeResponse (keyLoaded key s)) := by
  have hx : exec (ldkeyOf key) (takeResponse s) = .next (loadKey (busOfBytes key) (takeResponse s)) := by
    rw [ldkeyOf_of_length hk]
    exact exec_of_admits (i := .ldkey 32 _) rfl (admits_ldkey_iff.mpr hs)
  rw [transact_encode hx (loadKey_rsp _ _), loadKey, keyLow_busOfBytes hk, keyHigh_busOfBytes hk]
  rfl

theorem transact_absorbOf {c : List Byte} {s : State} (h1 : 1 ≤ c.length) (h16 : c.length ≤ 16)
    (hs : s.PHASE = .keyed) :
    transact (encode (absorbOf c)) s = some (0#136, takeResponse (chunkFolded c s)) := by
  have hlen : (lenOf c.length).toNat = c.length := lenOf_toNat_of_le (by omega)
  have hw : (absorbOf c).wellFormed = true :=
    wellFormed_absorb (busOfBytes c) (by omega) (by omega)
  have hx : exec (absorbOf c) (takeResponse s) = .next (absorbBlock c.length (busOfBytes c) (takeResponse s)) := by
    rw [exec_of_admits (s := takeResponse s) hw (admits_absorb_iff.mpr hs), absorbOf, effectOf, hlen]
  rw [transact_encode hx (absorbBlock_rsp ..), absorbBlock, blkEnc_busOfBytes (by omega)]
  rfl

theorem transact_final {s : State} (hs : s.PHASE = .keyed ∨ s.PHASE = .last) :
    transact (encode (.final 0 0)) s =
      some (tagWord (tagval s.ACC.toNat s.S.toNat), takeResponse (wipedIdle s)) := by
  have hx : exec (.final 0 0) (takeResponse s) = .next (finish (takeResponse s)) := exec_final_zero 0 hs
  rw [finish_eq] at hx
  rw [transact_encode hx rfl]
  rfl

/-! ## The commands after `LDKEY` -/

/-- The words of `MAC` after the first (44_compute_tag.md R73). -/
def wordsAfterKey (msg : List Byte) : List CmdWord := ((chunks msg).map absorbOf ++ [Instr.final 0 0]).map encode

theorem macProgram_words (key msg : List Byte) :
    (macProgram key msg).map encode = encode (ldkeyOf key) :: wordsAfterKey msg := rfl

theorem wordsAfterKey_nil : wordsAfterKey [] = [encode (.final 0 0)] := rfl

theorem wordsAfterKey_short {c : List Byte} (h1 : 1 ≤ c.length) (h16 : c.length ≤ 16) :
    wordsAfterKey c = [encode (absorbOf c), encode (.final 0 0)] := by
  rw [wordsAfterKey, chunks_of_short h1 h16]
  rfl

theorem wordsAfterKey_full {c : List Byte} (hc : c.length = 16) (rest : List Byte) :
    wordsAfterKey (c ++ rest) = encode (absorbOf c) :: wordsAfterKey rest := by
  rw [wordsAfterKey, chunks_append hc]
  rfl

theorem chunkFolded_ACC_toNat (c : List Byte) (s : State) :
    (chunkFolded c s).ACC.toNat = foldChunk s.R.toNat s.ACC.toNat c := macstep_toNat _ _ _

theorem chunkFolded_PHASE_full {c : List Byte} (hc : c.length = 16) (s : State) :
    (chunkFolded c s).PHASE = .keyed := if_pos hc

theorem chunkFolded_PHASE_short {c : List Byte} (hc : c.length < 16) (s : State) :
    (chunkFolded c s).PHASE = .last := if_neg (Nat.ne_of_lt hc)

/-- From `KEYED` the chunks are answered `OK` and the `FINAL` by the tag of the fold (44_compute_tag.md R74). -/
theorem serve_wordsAfterKey (msg : List Byte) {s : State} (hs : s.PHASE = .keyed) :
    serve (wordsAfterKey msg) s =
      some (List.replicate (chunks msg).length 0#136 ++
          [tagWord (tagval ((chunks msg).foldl (foldChunk s.R.toNat) s.ACC.toNat) s.S.toNat)],
        takeResponse (wipedIdle s)) := by
  induction msg using chunk_induction generalizing s with
  | nil => exact serve_cons (transact_final (.inl hs)) (serve_nil _)
  | short c h1 h16 =>
    have hfinal := transact_final (s := takeResponse (chunkFolded c s)) (.inr (chunkFolded_PHASE_short h16 s))
    rw [wordsAfterKey_short h1 (by omega), chunks_of_short h1 (by omega)]
    rw [serve_cons (transact_absorbOf h1 (by omega) hs) (serve_cons hfinal (serve_nil _)), takeResponse_ACC,
      chunkFolded_ACC_toNat]
    rfl
  | full c rest hc ih =>
    have hrest := ih (s := takeResponse (chunkFolded c s)) (chunkFolded_PHASE_full hc s)
    rw [wordsAfterKey_full hc, serve_cons (transact_absorbOf (by omega) (by omega) hs) hrest, chunks_append hc,
      takeResponse_ACC, chunkFolded_ACC_toNat]
    rfl

theorem keyLoaded_S_toNat {key : List Byte} (hk : key.length = 32) (s : State) :
    (keyLoaded key s).S.toNat = keyS key := by
  have hlt := keyS_lt key
  rw [keyS_of_length hk] at hlt ⊢
  exact Nat.mod_eq_of_lt hlt

/-- Settles O37: `LDKEY` loads the two key halves, and the rest is the fold from them. -/
theorem macComputesTag : Obligations.MacComputesTag := by
  intro key msg s hk hs
  have hrest := serve_wordsAfterKey msg (s := takeResponse (keyLoaded key s)) rfl
  have hR : (takeResponse (keyLoaded key s)).R.toNat = keyR key := rfl
  have hACC : (takeResponse (keyLoaded key s)).ACC.toNat = 0 := rfl
  refine ⟨_, computeTag_of_length hk, leEnc_length _ _, ?_⟩
  rw [hR, hACC, takeResponse_S, keyLoaded_S_toNat hk, chunks_length] at hrest
  rw [runMac, macProgram_words, serve_cons (transact_ldkeyOf hk hs) hrest, leDec_leEnc,
    Nat.mod_eq_of_lt (tagval_lt _ _), Nat.add_comm 1, List.replicate_succ]
  rfl

/-! ## The engine time -/

theorem serveCycles_nil (s : State) : serveCycles [] s = some 0 := rfl

theorem serveCycles_cons {i : Instr} {ws : List CmdWord} {s t : State} {q : RspWord} {k : Nat}
    (h : transact (encode i) s = some (q, t)) (hr : serveCycles ws t = some k) :
    serveCycles (encode i :: ws) s = some (latency i.op i.len s.PHASE + k) := by
  simp [serveCycles, h, hr, wordLatency]

theorem absorbOf_len {c : List Byte} (h : c.length ≤ 16) : (absorbOf c).len = BitVec.ofNat 6 c.length :=
  lenOf_of_le (by omega)

/-- The engine time after `LDKEY`: every chunk finds the engine in `KEYED` (70_reset_and_hazards.md R101). -/
theorem serveCycles_wordsAfterKey (msg : List Byte) {s : State} (hs : s.PHASE = .keyed) :
    serveCycles (wordsAfterKey msg) s =
      some (((chunks msg).map fun c => latency .absorb (BitVec.ofNat 6 c.length) .keyed).sum +
        latency .final 0 (if msg.length % 16 = 0 then .keyed else .last)) := by
  induction msg using chunk_induction generalizing s with
  | nil =>
    rw [wordsAfterKey_nil, serveCycles_cons (transact_final (.inl hs)) (serveCycles_nil _), hs]
    simp [chunks_nil, Instr.op, Instr.len]
  | short c h1 h16 =>
    have hlast := chunkFolded_PHASE_short h16 s
    have hfinal := transact_final (s := takeResponse (chunkFolded c s)) (.inr hlast)
    have hmod : c.length % 16 ≠ 0 := by omega
    rw [wordsAfterKey_short h1 (by omega), chunks_of_short h1 (by omega), if_neg hmod,
      serveCycles_cons (transact_absorbOf h1 (by omega) hs) (serveCycles_cons hfinal (serveCycles_nil _)),
      absorbOf_len (by omega), takeResponse_PHASE, hlast, hs, List.map_singleton, List.sum_singleton]
    rfl
  | full c rest hc ih =>
    have hrest := ih (s := takeResponse (chunkFolded c s)) (chunkFolded_PHASE_full hc s)
    have hmod : (c ++ rest).length % 16 = rest.length % 16 := by rw [List.length_append]; omega
    rw [wordsAfterKey_full hc, serveCycles_cons (transact_absorbOf (by omega) (by omega) hs) hrest, chunks_append hc,
      absorbOf_len (by omega), hs, hmod, List.map_cons, List.sum_cons, Nat.add_assoc]
    rfl

/-- Settles O46: `LDKEY` runs in `IDLE`, and what follows is the time of the commands after it. -/
theorem engineTimeOfMac : Obligations.EngineTimeOfMac := by
  intro key msg s hk hs
  have hrest := serveCycles_wordsAfterKey msg (s := takeResponse (keyLoaded key s)) rfl
  rw [macProgram_words, serveCycles_cons (transact_ldkeyOf hk hs) hrest, ldkeyOf_of_length hk, hs]
  rfl

/-! ## A key of another length -/

/-- In `ERROR` every command but `CLR` is answered with the recorded cause (60_exceptions.md R90). -/
theorem serve_of_error {is : List Instr} (his : ∀ i ∈ is, i.op ≠ .clr) {s : State} (hs : s.PHASE = .error)
    (hready : takeResponse s = s) :
    serve (is.map encode) s = some (List.replicate is.length (codeWord s.ERR), s) := by
  induction is with
  | nil => exact serve_nil s
  | cons i is ih =>
    obtain ⟨hi, his⟩ := List.forall_mem_cons.mp his
    have hx : exec i (takeResponse s) = .next (afterSticky (takeResponse s)) := exec_of_error hs fun h => hi h.1
    have htr : transact (encode i) s = some (codeWord s.ERR, s) := by
      rw [transact_encode hx rfl]
      conv_rhs => rw [← hready]
      rfl
    exact serve_cons htr (ih his)

theorem commandsAfterKey_ne_clr (msg : List Byte) :
    ∀ i ∈ (chunks msg).map absorbOf ++ [Instr.final 0 0], i.op ≠ .clr := by
  intro i hi
  rcases List.mem_append.mp hi with hi | hi
  · obtain ⟨c, -, rfl⟩ := List.mem_map.mp hi
    simp [absorbOf, Instr.op]
  · rw [List.mem_singleton.mp hi]
    simp [Instr.op]

theorem transact_ldkeyOf_wrong {key : List Byte} {s : State} (hk : key.length ≠ 32) (hs : s.PHASE ≠ .error) :
    transact (encode (ldkeyOf key)) s = some (0x01#136, takeResponse (afterFault .keylen s)) := by
  have hw : (ldkeyOf key).wellFormed = false := toNat_beq_eq_false (lenOf_eq_32_iff.not.mpr hk)
  have hx : exec (ldkeyOf key) (takeResponse s) = .next (afterFault .keylen (takeResponse s)) :=
    exec_of_not_wellFormed hs hw
  rw [transact_encode hx rfl]
  rfl

/-- Settles O44: `LDKEY` takes the fault entry, and every command after it is answered in `ERROR`. -/
theorem wrongKeyLengthGivesNoTag : Obligations.WrongKeyLengthGivesNoTag := by
  intro key msg s hk hs
  have hrest := serve_of_error (commandsAfterKey_ne_clr msg) (s := takeResponse (afterFault .keylen s)) rfl rfl
  have hlen : ((chunks msg).map absorbOf ++ [Instr.final 0 0]).length = 1 + chunkCount msg.length := by
    rw [List.length_append, List.length_map, chunks_length, List.length_singleton, Nat.add_comm]
    rfl
  have hcount : 2 + chunkCount msg.length = (1 + chunkCount msg.length) + 1 := by omega
  rw [hlen] at hrest
  rw [runMac, macProgram_words, wordsAfterKey, serve_cons (transact_ldkeyOf_wrong hk (by simp [hs])) hrest, hcount,
    List.replicate_succ]
  rfl

end Sys2Proof.Machine
end
